-- ==== Sys2Proof/Word.lean ====
section
/-! DEFINITION. The fixed widths of the block (00_scope.md R9): bytes, data values, addresses.
-/

namespace Sys2Proof

/-- A byte of a record or of the program store. -/
abbrev Byte := BitVec 8

/-- A 32-bit pattern read as unsigned: an address, an offset, a host register (00_scope.md section 5, `u32`). -/
abbrev U32 := BitVec 32

/-- A 32-bit two's-complement data value: a stack entry or a memory cell (R9, R13, R14; log 2).
Its signed reading is `BitVec.toInt`. -/
abbrev I32 := BitVec 32

end Sys2Proof
end

