-- ==== Sys2Proof/Config.lean ====
section
/-! DEFINITION. What one instance of the block fixes (00_scope.md R5 to R8), and the one free value of the model.
-/

namespace Sys2Proof

/-- The parameters of one block instance. They are data of the instance, held in `State` beside what changes,
so that every statement about all states is a statement about all parameter values (log 1). -/
structure Config where
  /-- `MEM_SIZE`, the number of data-memory cells (R5). -/
  memSize : Nat
  /-- `STACK_DEPTH` (R6): `none` is `INF`. -/
  stackDepth : Option Nat
  /-- `PROG_MAX`, the capacity of the program store in bytes (R7). -/
  progMax : Nat
  /-- `SGN_OPERAND_CHECK` (R8). -/
  sgnOperandCheck : Bool
  deriving DecidableEq, Repr

/-- The ranges R5, R6 and R7 give the parameters: `MEM_SIZE <= 2^32`, `STACK_DEPTH` positive or `INF`,
`PROG_MAX <= 2^32 - 1`. -/
def Config.wf (c : Config) : Bool :=
  decide (c.memSize ≤ 4294967296) && decide (c.progMax < 4294967296) &&
    match c.stackDepth with
    | none => true
    | some d => decide (0 < d)

/-- The instance `State.reset` takes: the spec's defaults `MEM_SIZE = 1024` (R5) and
`SGN_OPERAND_CHECK = false` (R8). DESIGN CHOICE, unsafe (log 1): the spec leaves `STACK_DEPTH` and `PROG_MAX`
OPEN; this instance has `STACK_DEPTH = INF` and `PROG_MAX = 2^32 - 1`. -/
def Config.default : Config where
  memSize := 1024
  stackDepth := none
  progMax := 4294967295
  sgnOperandCheck := false

/-- What a host write of CTRL with both START and STEP set to 1 may do. The spec gives each bit its effect
(10_state.md R31, R33) and no order between them. START before STEP is `startOnly`: after START the state is
not IDLE, so STEP is ignored (R35). -/
inductive CtrlChoice where
  | neither | startOnly | stepOnly | stepThenStart
  deriving DecidableEq, Repr, Inhabited

/-- FREE VALUE (log 3, safe): which of the four happens at the `n`-th such write. Nothing constrains it. -/
opaque Config.ctrlBothBits : Nat → CtrlChoice

end Sys2Proof
end

