-- ==== Sys2Proof/Machine/State.lean ====
section
/-! DEFINITION. The state of the block as plain data (10_state.md R10 to R26; 70_reset_and_hazards.md R122), the
reasons the model stops, and the state after reset.
-/

namespace Sys2Proof.Machine

/-- The status field `state` (10_state.md R21). -/
inductive Status where
  | idle | running | done | fault
  deriving DecidableEq, Repr

/-- `fault.code` (60_exceptions.md R101); `noFault` is code 0. -/
inductive FaultCode where
  | noFault | malformedStream | unknownOpcode | outOfBounds | stackUnderflow | stackOverflow | illegalOperand
  deriving DecidableEq, Repr

/-- `fault.op` (10_state.md R22, R23); `noOp` is NONE. -/
inductive FaultOp where
  | noOp | read | write
  deriving DecidableEq, Repr

/-- The fault record (10_state.md R22). -/
structure FaultRecord where
  code : FaultCode
  pc : U32
  opcode : Byte
  addr : U32
  op : FaultOp
  deriving DecidableEq, Repr

/-- The record while no fault has been raised since reset (R101, row 0; R122). -/
def FaultRecord.empty : FaultRecord where
  code := .noFault
  pc := 0
  opcode := 0
  addr := 0
  op := .noOp

/-- Data memory (R14, R50): (cell address, value) pairs in the canonical form of `Memory.wf`. An unlisted cell reads
0, its reset value (R122). -/
structure Memory where
  cells : List (Nat × I32)
  deriving DecidableEq, Repr

/-- The program store (20_memory.md R41, R42): (offset, byte) pairs in the canonical form of `ProgramStore.wf`. An
unlisted byte has no value: the host has not written it since reset (R122, R123). -/
structure ProgramStore where
  bytes : List Host.Cell
  deriving DecidableEq, Repr

/-- The host registers CR0 to CR19 (10_state.md R23), in order. -/
inductive HostReg where
  | ctrl | status | faultCode | faultPc | faultOpcode | faultAddr | faultOp | memSize | progLen | pc | sp
  | stepRecLo | stepRecHi | progAddr | progData | memAddr | memData | stackPush | stackIndex | stackData
  deriving DecidableEq, Repr

/-- Everything the spec gives the block, and `draws`, the model's own. -/
structure State where
  /-- The instance's parameters (00_scope.md R5 to R8); CR7 shows `MEM_SIZE` (R24). -/
  cfg : Config
  /-- `state` (R21), shown by STATUS, CR1. -/
  status : Status
  /-- The fault record (R22), shown by CR2 to CR6. -/
  fault : FaultRecord
  /-- `pc` (R17), shown by CR9. -/
  pc : U32
  /-- `S`, bottom first: the top is the last element (00_scope.md section 5; R11). -/
  stack : List I32
  /-- `M` (R14). -/
  mem : Memory
  /-- `P` (20_memory.md R42). -/
  prog : ProgramStore
  /-- PROG_LEN, CR8 (R25). -/
  progLen : U32
  /-- STEP_REC_LO, CR11: record bytes 0 to 3 (R33). -/
  stepRecLo : U32
  /-- STEP_REC_HI, CR12, bits 7:0: record byte 4 (R33). -/
  stepRecHi : Byte
  /-- PROG_ADDR, CR13. -/
  progAddr : U32
  /-- MEM_ADDR, CR15. -/
  memAddr : U32
  /-- STACK_INDEX, CR18 (log 10). -/
  stackIndex : U32
  /-- The MODEL's own field: how many free values have been drawn (log 3, log 14). -/
  draws : Nat
  deriving DecidableEq, Repr

/-- Why a step stops although no instruction is refused. None of these is a fault of the spec: the spec's six faults
are states (60_exceptions.md R111), see `State.raiseFault`. -/
inductive Fault where
  /-- Raised by `step` in IDLE: no run is in progress and no step is enabled until the host acts (10_state.md R21,
  R32). Safe (log 4). -/
  | notStarted
  /-- Raised by `step` in DONE: a halt state in which no step is enabled (60_exceptions.md R121). Safe (log 4). -/
  | haltedDone
  /-- Raised by `step` in FAULT: a halt state in which no step is enabled (R121, R113). Safe (log 4). -/
  | haltedFault
  /-- Raised by `step` in RUNNING when the record at `pc` would extend past PROG_LEN: such a record is never fetched
  (10_state.md R19); no run reaches such a state. Safe (log 5). -/
  | fetchPastEnd
  deriving DecidableEq, Repr

/-- Why the model gives no meaning. -/
inductive Refusal where
  /-- An instruction with no meaning yet; no arm of `exec` answers it. Safe. -/
  | notModelled (mnemonic : String)
  /-- Raised by `step` when the record at byte offset `offset` holds a byte the host has not written since reset
  (70_reset_and_hazards.md R123: the model refuses it). Safe (log 6). -/
  | unwrittenProgramByte (offset : Nat)
  /-- Raised by `react` for a host read that has no defined value (10_state.md R27, R28, R29). Safe (log 9). -/
  | noDefinedValue (register : HostReg)
  deriving DecidableEq, Repr

/-- The state reset leaves in an instance with parameters `c` (R122). `draws` is the model's own field (log 14). -/
def State.resetWith (c : Config) : State where
  cfg := c
  status := .idle
  fault := FaultRecord.empty
  pc := 0
  stack := []
  mem := ⟨[]⟩
  prog := ⟨[]⟩
  progLen := 0
  stepRecLo := 0
  stepRecHi := 0
  progAddr := 0
  memAddr := 0
  stackIndex := 0
  draws := 0

/-- The machine right after reset (R122), in the instance `Config.default` (log 1). -/
def State.reset : State := State.resetWith Config.default

end Sys2Proof.Machine
end

