-- ==== Sys2Proof/Machine/Operands.lean ====
section
/-! DEFINITION. The operand forms: what a meaning makes of the typed operand of its record (30_encoding.md R65;
40_data_movement.md R90, R91). There is one addressing mode and no form reads a register (10_state.md R10).
-/

namespace Sys2Proof.Machine

/-- LOAD_CONST's constant as the `i32` it pushes: its two's-complement pattern (R91, R93; log 17). -/
def constantOperand (c : Int) : I32 := BitVec.ofInt 32 c

/-- The effective cell address of READ_MEM and WRITE_MEM: the operand itself, absolute and unsigned (R90). -/
def effectiveAddress (a : Nat) : Nat := a

/-- An address as the 32-bit field `fault.addr` records it (60_exceptions.md R101; log 17). -/
def addressField (a : Nat) : U32 := BitVec.ofNat 32 a

/-- SGN's operand is not zero (41_sign.md R98): the test `SGN_OPERAND_CHECK` enables. -/
def unusedOperandNonzero (u : Nat) : Bool := decide (u ≠ 0)

end Sys2Proof.Machine
end

