-- ==== Sys2Proof/Syntax.lean ====
section
/-! DEFINITION. The instruction set: one constructor per row of spec/opcode_table.json, with the typed operand the
decoder gives it (30_encoding.md R65). The 252 reserved opcode bytes are no instruction (R70).
-/

namespace Sys2Proof

/-- The four instructions (R68). Operands carry the typed value of R65: a signed integer for LOAD_CONST, an
unsigned one otherwise; their ranges are `wellFormed`. -/
inductive Instr where
  /-- LOAD_CONST, `Constant(i32)` (40_data_movement.md R93). -/
  | loadConst (c : Int)
  /-- SGN, `Unused(u32)` (41_sign.md R98). -/
  | sgn (u : Nat)
  /-- WRITE_MEM, `Address(u32)` (40_data_movement.md R95). -/
  | writeMem (a : Nat)
  /-- READ_MEM, `Address(u32)` (40_data_movement.md R94). -/
  | readMem (a : Nat)
  deriving DecidableEq, Repr

end Sys2Proof
end

