-- ==== Sys2Proof/WellFormed.lean ====
section
/-! DEFINITION. Which instruction terms an encoding stands for: the ranges of the typed operands
(00_scope.md section 5, `i32` and `u32`; 30_encoding.md R65, R69). Every operand pattern is legal (R69), so the
ranges are all there is to check.
-/

namespace Sys2Proof

/-- The `i32` range `[-2^31, 2^31 - 1]`. -/
def inI32 (c : Int) : Bool := decide (-2147483648 ≤ c) && decide (c < 2147483648)

/-- The `u32` range `[0, 2^32 - 1]`. -/
def inU32 (a : Nat) : Bool := decide (a < 4294967296)

/-- The operand of an instruction is in the range of its type (R65). -/
def wellFormed : Instr → Bool
  | .loadConst c => inI32 c
  | .sgn u => inU32 u
  | .writeMem a => inU32 a
  | .readMem a => inU32 a

end Sys2Proof
end

