-- ==== Sys2Proof/Decode.lean ====
section
/-! DEFINITION. The record format REC40, the decoder and the encoder (30_encoding.md R61 to R73, R78 to R81).
The decoder is total on every record and reads no state (R66, R67).
-/

namespace Sys2Proof

/-- One instruction record: 5 bytes in stream order, `b0` the opcode (R61, R62). -/
structure Record where
  b0 : Byte
  b1 : Byte
  b2 : Byte
  b3 : Byte
  b4 : Byte
  deriving DecidableEq, Repr

/-- The record's bytes in stream order (R62). -/
def Record.bytes (r : Record) : List Byte := [r.b0, r.b1, r.b2, r.b3, r.b4]

/-- The record word `W`, the 5 bytes read little-endian (R63). -/
def Record.word (r : Record) : BitVec 40 := r.b4 ++ (r.b3 ++ (r.b2 ++ (r.b1 ++ r.b0)))

/-- The record whose word has the value `w` (R63); bits of `w` above 39 are dropped. -/
def recordOfNat (w : Nat) : Record where
  b0 := BitVec.ofNat 8 w
  b1 := BitVec.ofNat 8 (w >>> 8)
  b2 := BitVec.ofNat 8 (w >>> 16)
  b3 := BitVec.ofNat 8 (w >>> 24)
  b4 := BitVec.ofNat 8 (w >>> 32)

/-! ## The opcode map (R68; the literal byte values, 90_conflicts.md C1) -/

/-- LOAD_CONST's opcode byte. -/
def opLoadConst : Byte := 0x00
/-- SGN's opcode byte. -/
def opSgn : Byte := 0x01
/-- WRITE_MEM's opcode byte. -/
def opWriteMem : Byte := 0xA2
/-- READ_MEM's opcode byte. -/
def opReadMem : Byte := 0xCE

/-! ## Operand assembly and typing (R64, R65) -/

/-- The operand pattern `u`: bytes 1 to 4, little-endian (R64). -/
def operandPattern (r : Record) : U32 :=
  BitVec.setWidth 32 r.b1 ||| (BitVec.setWidth 32 r.b2 <<< 8) |||
    (BitVec.setWidth 32 r.b3 <<< 16) ||| (BitVec.setWidth 32 r.b4 <<< 24)

/-- `sext_32` (00_scope.md section 5): the integer whose two's-complement pattern is `u` (log 2). -/
def sext32 (u : U32) : Int :=
  if u.toNat < 2147483648 then (u.toNat : Int) else (u.toNat : Int) - 4294967296

/-- `zext` (00_scope.md section 5): the pattern read as an unsigned number. -/
def zext32 (u : U32) : Nat := u.toNat

/-! ## The decoder (R66) -/

/-- The decoder's result: an instruction with its typed operand, or the reserved opcode byte by name (R66, R70). -/
inductive Decoded where
  | instr (i : Instr)
  | unknown (op : Byte)
  deriving DecidableEq, Repr

/-- `Decode` (R66): only the opcode byte selects the instruction (R69). -/
def decode (r : Record) : Decoded :=
  let u := operandPattern r
  if r.b0 = opLoadConst then .instr (.loadConst (sext32 u))
  else if r.b0 = opReadMem then .instr (.readMem (zext32 u))
  else if r.b0 = opWriteMem then .instr (.writeMem (zext32 u))
  else if r.b0 = opSgn then .instr (.sgn (zext32 u))
  else .unknown r.b0

/-- The records of a byte stream, in order (R42, R73): `none` when 1 to 4 bytes are left over. -/
def recordsOf : List Byte → Option (List Record)
  | [] => some []
  | b0 :: b1 :: b2 :: b3 :: b4 :: rest =>
    match recordsOf rest with
    | some rs => some (⟨b0, b1, b2, b3, b4⟩ :: rs)
    | none => none
  | _ => none

/-! ## The encoder -/

/-- Byte `k` of a 32-bit pattern, byte 0 the least significant (R64). -/
def patternByte (u : U32) (k : Nat) : Byte := BitVec.setWidth 8 (u >>> (8 * k))

/-- A record from its opcode byte and its operand pattern (R62, R64). -/
def recordOf (op : Byte) (u : U32) : Record where
  b0 := op
  b1 := patternByte u 0
  b2 := patternByte u 1
  b3 := patternByte u 2
  b4 := patternByte u 3

/-- The record of an instruction (R62, R64, R65): the operand's 32-bit pattern, two's complement for LOAD_CONST. -/
def encode : Instr → Record
  | .loadConst c => recordOf opLoadConst (BitVec.ofInt 32 c)
  | .sgn u => recordOf opSgn (BitVec.ofNat 32 u)
  | .writeMem a => recordOf opWriteMem (BitVec.ofNat 32 a)
  | .readMem a => recordOf opReadMem (BitVec.ofNat 32 a)

/-! ## The opcode table's numbering -/

/-- The instruction the decoder reads from the record whose word is the low `nbits` bits of `w`
(spec/opcode_table.json numbers a record as `W`, R63). -/
def decodeTableWord (nbits w : Nat) : Option Instr :=
  match decode (recordOfNat (w % 2 ^ nbits)) with
  | .instr i => some i
  | .unknown _ => none

end Sys2Proof
end

