-- ==== Sys2Proof/Machine/Ops.lean ====
section
/-! DEFINITION. The named operations over data memory, the program store, the operand stack and the fault record
(00_scope.md section 5; 20_memory.md R41 to R60; 60_exceptions.md R111, R112). Every meaning is written over these.
-/

namespace Sys2Proof.Machine

/-! ## Sparse lists: (key, value) pairs, keys strictly rising -/

/-- The value listed at key `a`, if any. -/
def sparseGet {α : Type} : List (Nat × α) → Nat → Option α
  | [], _ => none
  | (k, v) :: rest, a => if a = k then some v else sparseGet rest a

/-- The list with `v` at key `a`, every other key as before. -/
def sparseSet {α : Type} : List (Nat × α) → Nat → α → List (Nat × α)
  | [], a, v => [(a, v)]
  | (k, w) :: rest, a, v =>
    if a < k then (a, v) :: (k, w) :: rest
    else if a = k then (a, v) :: rest
    else (k, w) :: sparseSet rest a v

/-- The list with nothing at key `a`, every other key as before. -/
def sparseErase {α : Type} : List (Nat × α) → Nat → List (Nat × α)
  | [], _ => []
  | (k, w) :: rest, a => if a = k then rest else (k, w) :: sparseErase rest a

/-- The keys rise strictly, each at least `lo` and below `hi`. -/
def sparseRising {α : Type} (hi : Nat) : Nat → List (Nat × α) → Bool
  | _, [] => true
  | lo, (k, _) :: rest => decide (lo ≤ k) && decide (k < hi) && sparseRising hi (k + 1) rest

/-! ## Data memory (R49 to R53) -/

/-- `MemRead(a, 1)`: the cell at `a`; an unlisted cell reads 0 (R122, R58). -/
def Memory.read (m : Memory) (a : Nat) : I32 := (sparseGet m.cells a).getD 0

/-- `MemWrite(a, 1, v)` (R51). Writing 0 removes the entry, which keeps the form canonical. -/
def Memory.write (m : Memory) (a : Nat) (v : I32) : Memory :=
  if v = 0 then ⟨sparseErase m.cells a⟩ else ⟨sparseSet m.cells a v⟩

/-- The canonical form of the memory of an instance with `size` cells: addresses strictly rising, each below `size`,
and no entry 0 (what an unlisted cell reads as). -/
def Memory.wf (size : Nat) (m : Memory) : Bool :=
  sparseRising size 0 m.cells && m.cells.all fun e => decide (e.2 ≠ 0)

/-- The bounds comparator `InBounds(a)` (R55): an unsigned comparison against `MEM_SIZE`. -/
def inBounds (c : Config) (a : Nat) : Bool := decide (a < c.memSize)

/-! ## The program store (R42) -/

/-- Program byte `i`: none until the host has written it (R122, R123). -/
def ProgramStore.read (p : ProgramStore) (i : Nat) : Option Byte := sparseGet p.bytes i

/-- `P[i] <- b`, the host's write through PROG_DATA (10_state.md R23). -/
def ProgramStore.write (p : ProgramStore) (i : Nat) (b : Byte) : ProgramStore := ⟨sparseSet p.bytes i b⟩

/-- The canonical form of a program store of capacity `cap`: offsets strictly rising, each below `cap`. -/
def ProgramStore.wf (cap : Nat) (p : ProgramStore) : Bool := sparseRising cap 0 p.bytes

/-! ## Updates of one field -/

def State.withStatus (s : State) (v : Status) : State := { s with status := v }
def State.withPc (s : State) (v : U32) : State := { s with pc := v }
def State.withStack (s : State) (v : List I32) : State := { s with stack := v }
def State.withMem (s : State) (v : Memory) : State := { s with mem := v }
def State.withProg (s : State) (v : ProgramStore) : State := { s with prog := v }
def State.withProgLen (s : State) (v : U32) : State := { s with progLen := v }
def State.withStepRecLo (s : State) (v : U32) : State := { s with stepRecLo := v }
def State.withStepRecHi (s : State) (v : Byte) : State := { s with stepRecHi := v }
def State.withProgAddr (s : State) (v : U32) : State := { s with progAddr := v }
def State.withMemAddr (s : State) (v : U32) : State := { s with memAddr := v }
def State.withStackIndex (s : State) (v : U32) : State := { s with stackIndex := v }
def State.withDraws (s : State) (v : Nat) : State := { s with draws := v }

/-! ## Taking a fault (60_exceptions.md R111) -/

/-- `raise`: in one step the state becomes FAULT and the fault record is written, `fault.pc` from `pc` (R22); nothing
else changes (R111, R112). There is no return from a fault (R114): only reset leaves FAULT, see `hardReset`. -/
def State.raiseFault (s : State) (code : FaultCode) (opcode : Byte) (addr : U32) (op : FaultOp) : State :=
  { s with
    status := .fault
    fault := { code := code, pc := s.pc, opcode := opcode, addr := addr, op := op } }

/-! ## The operand stack (R11; 00_scope.md section 5) -/

/-- A push would exceed `STACK_DEPTH` (60_exceptions.md R106; log 13). Never with `INF`. -/
def State.stackFull (s : State) : Bool :=
  match s.cfg.stackDepth with
  | none => false
  | some d => decide (d ≤ s.stack.length)

/-- The stack with `v` on top. -/
def State.pushValue (s : State) (v : I32) : State := s.withStack (s.stack ++ [v])

/-- `Push(v)` by the instruction with opcode byte `opcode`: StackOverflow on a full stack (R106), the stack then
unchanged. -/
def pushOrOverflow (opcode : Byte) (v : I32) (s : State) : Host.Outcome State Fault Refusal :=
  if s.stackFull then .next (s.raiseFault .stackOverflow opcode 0 .noOp) else .next (s.pushValue v)

/-- `Pop()`: the top and the state without it; none on an empty stack. -/
def State.popValue (s : State) : Option (I32 × State) :=
  match s.stack.getLast? with
  | none => none
  | some v => some (v, s.withStack s.stack.dropLast)

/-! ## Reset (70_reset_and_hazards.md R122) -/

/-- Reset in any state: the values of R122; the instance keeps its parameters (R5, R24), the model its count of
draws (log 14). -/
def hardReset (s : State) : State := (State.resetWith s.cfg).withDraws s.draws

end Sys2Proof.Machine
end

