-- ==== Sys2Proof/Machine/DataMovement.lean ====
section
/-! DEFINITION. LOAD_CONST, READ_MEM and WRITE_MEM (40_data_movement.md R90 to R95). Each runs its checks in the order
of 60_exceptions.md R110, all before its first write (R112). Like `Execute` (10_state.md R30) they leave `pc` alone.
-/

namespace Sys2Proof.Machine

/-- LOAD_CONST (R93): push the constant. -/
def execLoadConst (c : Int) (s : State) : Host.Outcome State Fault Refusal :=
  pushOrOverflow opLoadConst (constantOperand c) s

/-- READ_MEM (R94): bounds check, read, push. -/
def execReadMem (a : Nat) (s : State) : Host.Outcome State Fault Refusal :=
  if inBounds s.cfg (effectiveAddress a) then
    pushOrOverflow opReadMem (s.mem.read (effectiveAddress a)) s
  else
    .next (s.raiseFault .outOfBounds opReadMem (addressField a) .read)

/-- WRITE_MEM (R95): bounds check, pop, store. An out-of-bounds address is reported whatever the stack holds (R92). -/
def execWriteMem (a : Nat) (s : State) : Host.Outcome State Fault Refusal :=
  if inBounds s.cfg (effectiveAddress a) then
    match s.popValue with
    | none => .next (s.raiseFault .stackUnderflow opWriteMem 0 .noOp)
    | some (v, t) => .next (t.withMem (t.mem.write (effectiveAddress a) v))
  else
    .next (s.raiseFault .outOfBounds opWriteMem (addressField a) .write)

end Sys2Proof.Machine
end

