-- ==== Sys2Proof/Machine/Sign.lean ====
section
/-! DEFINITION. SGN (41_sign.md R98, R99), the only computing instruction.
-/

namespace Sys2Proof.Machine

/-- The sign of an `i32`, by signed comparisons (R98): 1, -1 or 0. -/
def signOf (v : I32) : I32 :=
  if 0 < v.toInt then 1#32 else if v.toInt < 0 then -1#32 else 0#32

/-- SGN (R98): the operand check where the instance has it, pop, push the sign. The push cannot overflow: it refills
the slot the pop freed. -/
def execSgn (u : Nat) (s : State) : Host.Outcome State Fault Refusal :=
  if s.cfg.sgnOperandCheck && unusedOperandNonzero u then
    .next (s.raiseFault .illegalOperand opSgn 0 .noOp)
  else
    match s.popValue with
    | none => .next (s.raiseFault .stackUnderflow opSgn 0 .noOp)
    | some (v, t) => .next (t.pushValue (signOf v))

end Sys2Proof.Machine
end

