-- ==== Sys2Proof/Machine/Dispatch.lean ====
section
/-! DEFINITION. One arm per instruction (30_encoding.md R66, `Execute`'s dispatch).
-/

namespace Sys2Proof.Machine

def exec (i : Instr) (s : State) : Host.Outcome State Fault Refusal :=
  match i with
  | .loadConst c => Sys2Proof.Machine.execLoadConst c s
  | .sgn u => Sys2Proof.Machine.execSgn u s
  | .writeMem a => Sys2Proof.Machine.execWriteMem a s
  | .readMem a => Sys2Proof.Machine.execReadMem a s

end Sys2Proof.Machine
end

