-- ==== Sys2Proof/Machine/Sequencer.lean ====
section
/-! DEFINITION. `Execute` on a record and the run sequencer (10_state.md R30 to R34).
-/

namespace Sys2Proof.Machine

/-- `Execute(rec)` (R30; 30_encoding.md R66): one meaning whichever way the record is reached (R34). A reserved opcode
raises UnknownOpcode before the operand is looked at (60_exceptions.md R103). -/
def executeRecord (r : Record) (s : State) : Host.Outcome State Fault Refusal :=
  match decode r with
  | .instr i => exec i s
  | .unknown op => .next (s.raiseFault .unknownOpcode op 0 .noOp)

/-- `Fetch(pc)` (00_scope.md section 5): the 5 bytes at `pc`; none when one of them has no value (R123). -/
def fetch (s : State) : Option Record :=
  match s.prog.read s.pc.toNat, s.prog.read (s.pc.toNat + 1), s.prog.read (s.pc.toNat + 2),
      s.prog.read (s.pc.toNat + 3), s.prog.read (s.pc.toNat + 4) with
  | some b0, some b1, some b2, some b3, some b4 => some ⟨b0, b1, b2, b3, b4⟩
  | _, _, _, _, _ => none

/-- What the sequencer does after `Execute` (R32): a fault ends the run with `pc` unchanged; otherwise `pc <- pc + 5`,
and DONE at the end of the program. -/
def advance (t : State) : State :=
  if t.status = .fault then t
  else if t.pc + 5 = t.progLen then (t.withPc (t.pc + 5)).withStatus .done
  else t.withPc (t.pc + 5)

/-- One step of a run (R32), fetch to the end of the instruction. -/
def runStep (s : State) : Host.Outcome State Fault Refusal :=
  if s.progLen.toNat < s.pc.toNat + 5 then .fault .fetchPastEnd
  else
    match fetch s with
    | none => .refused (.unwrittenProgramByte s.pc.toNat)
    | some r =>
      match executeRecord r s with
      | .next t => .next (advance t)
      | .fault e => .fault e
      | .refused e => .refused e

/-- A step in each state (R32): only RUNNING has one (60_exceptions.md R121; log 4). -/
def sequencerStep (s : State) : Host.Outcome State Fault Refusal :=
  match s.status with
  | .idle => .fault .notStarted
  | .running => runStep s
  | .done => .fault .haltedDone
  | .fault => .fault .haltedFault

/-- START in IDLE (R31): the framing check, before any record is fetched; the empty program is DONE at once. -/
def startRun (s : State) : State :=
  if s.progLen.toNat % 5 ≠ 0 then s.raiseFault .malformedStream 0 s.progLen .noOp
  else if s.progLen = 0 then s.withStatus .done
  else s.withStatus .running

/-- The record in STEP_REC_LO and STEP_REC_HI (R33): byte `i` is bits `8i+7:8i`. -/
def stepRecord (s : State) : Record where
  b0 := patternByte s.stepRecLo 0
  b1 := patternByte s.stepRecLo 1
  b2 := patternByte s.stepRecLo 2
  b3 := patternByte s.stepRecLo 3
  b4 := s.stepRecHi

/-- STEP in IDLE (R33): `Execute` once on the record of STEP_REC; `pc` is not written (R34). -/
def singleStep (s : State) : Host.Outcome State Fault Refusal := executeRecord (stepRecord s) s

/-- The program store with the 5 bytes of `r` at byte offset `i`. -/
def ProgramStore.writeRecord (p : ProgramStore) (i : Nat) (r : Record) : ProgramStore :=
  ((((p.write i r.b0).write (i + 1) r.b1).write (i + 2) r.b2).write (i + 3) r.b3).write (i + 4) r.b4

/-- A run in progress whose next record is `r`: `r` stands at `pc` in the program store, the status is RUNNING, and
PROG_LEN reaches past the record (log 11). -/
def placeRecord (s : State) (r : Record) : State :=
  let t := (s.withProg (s.prog.writeRecord s.pc.toNat r)).withStatus .running
  if s.progLen.toNat < s.pc.toNat + 5 then t.withProgLen (s.pc + 5) else t

end Sys2Proof.Machine
end

