-- ==== Sys2Proof/Machine/Step.lean ====
section
/-! DEFINITION. The step of the machine, and how the host's check places one instruction where it fetches.
-/

namespace Sys2Proof.Machine

/-- One step of the block: one instruction of the run in progress (10_state.md R32). -/
def step (s : State) : Host.Outcome State Fault Refusal := sequencerStep s

/-- The state in which the very next step runs the record whose word is the low `nbits` bits of `w`: a run in
progress with that record at `pc` (log 11). -/
def State.withFetchWord (s : State) (nbits w : Nat) : State := placeRecord s (recordOfNat (w % 2 ^ nbits))

end Sys2Proof.Machine
end

