-- ==== Sys2Proof/Machine/Assembler.lean ====
section
/-! DEFINITION. The assembler (30_encoding.md R74 to R89): source text to the bytes of a program. It is a toolchain
program, not part of the block (00_scope.md R4). Text is a list of characters, already decoded from UTF-8 (log 15).
-/

namespace Sys2Proof.Machine

/-- Source text, a line or a token. -/
abbrev Text := List Char

/-- The two assembly-time errors (60_exceptions.md R108); neither is a fault of the block. -/
inductive AsmError where
  /-- R83: names the offending mnemonic. -/
  | unknownInstruction (mnemonic : Text)
  /-- R84. -/
  | malformedOperand
  deriving DecidableEq, Repr

/-! ## Lines and tokens (R74 to R77) -/

/-- Space, tab, LF, VT, FF, CR (R75). -/
def isWhitespace (c : Char) : Bool :=
  c.toNat == 32 || (decide (9 ≤ c.toNat) && decide (c.toNat ≤ 13))

/-- The lines of a text, split at LF (log 15); `cur` is the current line so far, reversed. -/
def splitLines : Text → Text → List Text
  | [], cur => [cur.reverse]
  | c :: cs, cur => if c.toNat = 10 then cur.reverse :: splitLines cs [] else splitLines cs (c :: cur)

/-- The maximal runs of characters that are not whitespace (R75); `cur` is the current one so far, reversed. -/
def splitTokens : Text → Text → List Text
  | [], cur => if cur.isEmpty then [] else [cur.reverse]
  | c :: cs, cur =>
    if isWhitespace c then
      if cur.isEmpty then splitTokens cs [] else cur.reverse :: splitTokens cs []
    else splitTokens cs (c :: cur)

/-- The lines of a source text (R74). -/
def sourceLines (src : Text) : List Text := splitLines src []

/-- The tokens of a line (R75). -/
def lineTokens (line : Text) : List Text := splitTokens line []

/-- A token list whose line is skipped: blank, or its first non-whitespace character is `#` (R75). -/
def isSkipped : List Text → Bool
  | [] => true
  | [] :: _ => false
  | (c :: _) :: _ => decide (c = '#')

/-! ## Base-10 integers (R82) -/

/-- The value of a string of ASCII digits, continuing from `acc`. -/
def digitsValue : Nat → Text → Option Nat
  | acc, [] => some acc
  | acc, c :: cs =>
    if 48 ≤ c.toNat ∧ c.toNat ≤ 57 then digitsValue (10 * acc + (c.toNat - 48)) cs else none

/-- One or more ASCII digits. -/
def unsignedValue (t : Text) : Option Nat := if t.isEmpty then none else digitsValue 0 t

/-- An optional sign, then one or more ASCII digits, nothing else (R82). -/
def parseInteger : Text → Option Int
  | [] => none
  | c :: cs =>
    if c = '-' then (unsignedValue cs).map fun n => -(n : Int)
    else if c = '+' then (unsignedValue cs).map fun n => (n : Int)
    else (unsignedValue (c :: cs)).map fun n => (n : Int)

/-! ## Mnemonics and operands (R76 to R84) -/

def mnLoadConst : Text := ['L', 'O', 'A', 'D', '_', 'C', 'O', 'N', 'S', 'T']
def mnReadMem : Text := ['R', 'E', 'A', 'D', '_', 'M', 'E', 'M']
def mnWriteMem : Text := ['W', 'R', 'I', 'T', 'E', '_', 'M', 'E', 'M']
def mnSgn : Text := ['S', 'G', 'N']

/-- Operand token 0 as a base-10 integer; tokens after it are ignored (R77, R84). -/
def integerOperand : List Text → Option Int
  | [] => none
  | t :: _ => parseInteger t

/-- LOAD_CONST's operand (R78). -/
def assembleConstant (operands : List Text) : Except AsmError Instr :=
  match integerOperand operands with
  | some c => if inI32 c then .ok (.loadConst c) else .error .malformedOperand
  | none => .error .malformedOperand

/-- The address operand of READ_MEM and WRITE_MEM (R79, R80). -/
def assembleAddress (make : Nat → Instr) (operands : List Text) : Except AsmError Instr :=
  match integerOperand operands with
  | some a => if 0 ≤ a && inU32 a.toNat then .ok (make a.toNat) else .error .malformedOperand
  | none => .error .malformedOperand

/-- The instruction of a line that is not skipped, by exact, case-sensitive mnemonic (R76, R78 to R81, R83). -/
def assembleInstr (mnemonic : Text) (operands : List Text) : Except AsmError Instr :=
  if mnemonic = mnLoadConst then assembleConstant operands
  else if mnemonic = mnReadMem then assembleAddress .readMem operands
  else if mnemonic = mnWriteMem then assembleAddress .writeMem operands
  else if mnemonic = mnSgn then .ok (.sgn 0)
  else .error (.unknownInstruction mnemonic)

/-- One assembled line: its tokens and its instruction. -/
structure AsmRow where
  mnemonic : Text
  operands : List Text
  instr : Instr
  deriving DecidableEq, Repr

/-- One line (R75 to R84): none when it is skipped. -/
def assembleLine (line : Text) : Except AsmError (Option AsmRow) :=
  match lineTokens line with
  | [] => .ok none
  | m :: ops =>
    if isSkipped (m :: ops) then .ok none
    else
      match assembleInstr m ops with
      | .ok i => .ok (some ⟨m, ops, i⟩)
      | .error e => .error e

/-- The rows of the lines, in order; the first error aborts everything (R83, R84, R85). -/
def assembleLines : List Text → Except AsmError (List AsmRow)
  | [] => .ok []
  | l :: ls =>
    match assembleLine l with
    | .error e => .error e
    | .ok row =>
      match assembleLines ls with
      | .error e => .error e
      | .ok rows => .ok (row.toList ++ rows)

/-- The rows of a source text. -/
def assembleRows (src : Text) : Except AsmError (List AsmRow) := assembleLines (sourceLines src)

/-- The binary program of a source text: the records of its rows, concatenated in order (R85). -/
def assemble (src : Text) : Except AsmError (List Byte) :=
  match assembleRows src with
  | .ok rows => .ok (rows.flatMap fun row => (encode row.instr).bytes)
  | .error e => .error e

/-! ## The assembly trace (R86) -/

/-- One lowercase hexadecimal digit. -/
def hexDigit (n : Nat) : Char := if n < 10 then Char.ofNat (48 + n) else Char.ofNat (87 + n)

/-- The 10 lowercase hexadecimal digits of a record's bytes in stream order (R86). -/
def recordHex (r : Record) : Text :=
  r.bytes.flatMap fun b => [hexDigit (b.toNat / 16), hexDigit (b.toNat % 16)]

/-- A trace row: mnemonic, operands as written, binary (R86). -/
structure TraceRow where
  mnemonic : Text
  operands : List Text
  binary : Text
  deriving DecidableEq, Repr

/-- The columns of the trace's header row (R86). -/
def traceHeader : List Text :=
  [['m', 'n', 'e', 'm', 'o', 'n', 'i', 'c'], ['o', 'p', 'e', 'r', 'a', 'n', 'd', 's'], ['b', 'i', 'n', 'a', 'r', 'y']]

/-- The trace of a source text: one row per assembled instruction (R86); none when assembly fails. -/
def traceRows (src : Text) : Except AsmError (List TraceRow) :=
  match assembleRows src with
  | .ok rows => .ok (rows.map fun row => ⟨row.mnemonic, row.operands, recordHex (encode row.instr)⟩)
  | .error e => .error e

end Sys2Proof.Machine
end

