-- ==== Sys2Proof/Machine/Flags.lean ====
section
/-! DEFINITION. The block has no status flags, condition codes or predicates (10_state.md R20), so no instruction
computes one. What stands here is the encoding of its status fields as the host reads them (R23, R101).
-/

namespace Sys2Proof.Machine

/-- STATUS.STATE, 2 bits (R23, CR1). -/
def Status.bits : Status → BitVec 2
  | .idle => 0
  | .running => 1
  | .done => 2
  | .fault => 3

/-- FAULT_CODE, 4 bits (R23, CR2; R101). Codes 7 to 15 are never written. -/
def FaultCode.bits : FaultCode → BitVec 4
  | .noFault => 0
  | .malformedStream => 1
  | .unknownOpcode => 2
  | .outOfBounds => 3
  | .stackUnderflow => 4
  | .stackOverflow => 5
  | .illegalOperand => 6

/-- FAULT_OP, 2 bits (R23, CR6). 3 is never written. -/
def FaultOp.bits : FaultOp → BitVec 2
  | .noOp => 0
  | .read => 1
  | .write => 2

end Sys2Proof.Machine
end

