-- ==== Sys2Proof/Machine/HostPort.lean ====
section
/-! DEFINITION. The host's side of the block: the register map CR0 to CR19 (10_state.md R23 to R29), START and STEP
(R31, R33), reset (70_reset_and_hazards.md R122), the boot order (R125, R126) and the result (R36). The host acts
between steps (log 12).
-/

namespace Sys2Proof.Machine

/-! ## The register map (R23) -/

/-- The number of a host register: CR0 to CR19 (R23). -/
def HostReg.number : HostReg → Nat
  | .ctrl => 0
  | .status => 1
  | .faultCode => 2
  | .faultPc => 3
  | .faultOpcode => 4
  | .faultAddr => 5
  | .faultOp => 6
  | .memSize => 7
  | .progLen => 8
  | .pc => 9
  | .sp => 10
  | .stepRecLo => 11
  | .stepRecHi => 12
  | .progAddr => 13
  | .progData => 14
  | .memAddr => 15
  | .memData => 16
  | .stackPush => 17
  | .stackIndex => 18
  | .stackData => 19

/-- The access column of R23: the states in which a write reaches the register; in every other case it is ignored
(R23, R27, R35). -/
def hostWritable (r : HostReg) (st : Status) : Bool :=
  match r with
  | .ctrl | .progLen | .stepRecLo | .stepRecHi | .progAddr | .progData | .memData | .stackPush =>
    decide (st = .idle)
  | .memAddr | .stackIndex => decide (st = .idle) || decide (st = .done)
  | .status | .faultCode | .faultPc | .faultOpcode | .faultAddr | .faultOp | .memSize | .pc | .sp | .stackData =>
    false

/-- The states in which a host read has a value: R23's access column, less CR13 to CR19 while RUNNING (R27) and
everything but CR1 to CR12 in FAULT (R28). STACK_PUSH is write-only (R23); log 9 says how PROG_DATA is read. -/
def hostReadable (r : HostReg) (st : Status) : Bool :=
  match r with
  | .ctrl => decide (st ≠ .fault)
  | .status | .faultCode | .faultPc | .faultOpcode | .faultAddr | .faultOp | .memSize | .progLen | .pc | .sp
  | .stepRecLo | .stepRecHi => true
  | .progAddr | .memAddr | .memData | .stackIndex | .stackData => decide (st = .idle) || decide (st = .done)
  | .progData => decide (st = .idle)
  | .stackPush => false

/-! ## Host reads -/

/-- The value a readable register shows, as an unsigned number; none where R29 or R123 gives no defined value.
Reserved bits read 0 (R23). A 32-bit data value is its pattern. -/
def hostReadValue (r : HostReg) (s : State) : Option Nat :=
  match r with
  | .ctrl => some 0
  | .status => some s.status.bits.toNat
  | .faultCode => some s.fault.code.bits.toNat
  | .faultPc => some s.fault.pc.toNat
  | .faultOpcode => some s.fault.opcode.toNat
  | .faultAddr => some s.fault.addr.toNat
  | .faultOp => some s.fault.op.bits.toNat
  | .memSize => some s.cfg.memSize
  | .progLen => some s.progLen.toNat
  | .pc => some s.pc.toNat
  | .sp => some s.stack.length
  | .stepRecLo => some s.stepRecLo.toNat
  | .stepRecHi => some s.stepRecHi.toNat
  | .progAddr => some s.progAddr.toNat
  | .progData =>
    if s.progAddr.toNat < s.cfg.progMax then (s.prog.read s.progAddr.toNat).map BitVec.toNat else none
  | .memAddr => some s.memAddr.toNat
  | .memData => if inBounds s.cfg s.memAddr.toNat then some (s.mem.read s.memAddr.toNat).toNat else none
  | .stackPush => none
  | .stackIndex => some s.stackIndex.toNat
  | .stackData => (s.stack[s.stackIndex.toNat]?).map BitVec.toNat

/-- A host read of a register: none where it has no defined value (R27, R28, R29). -/
def hostRead (r : HostReg) (s : State) : Option Nat :=
  if hostReadable r s.status then hostReadValue r s else none

/-! ## Host writes -/

/-- STEP, then START where the step left IDLE (R31, R33, R35): one of the ways a write of both CTRL bits may go
(log 3). -/
def stepThenStart (s : State) : Host.Outcome State Fault Refusal :=
  match singleStep s with
  | .next t => if t.status = .idle then .next (startRun t) else .next t
  | .fault e => .fault e
  | .refused e => .refused e

/-- A write of CTRL with both bits 1, by the way drawn for it (log 3). -/
def ctrlBoth (choice : CtrlChoice) (s : State) : Host.Outcome State Fault Refusal :=
  match choice with
  | .neither => .next s
  | .startOnly => .next (startRun s)
  | .stepOnly => singleStep s
  | .stepThenStart => stepThenStart s

/-- A write of `v` to CTRL in IDLE (R23, CR0): bit 0 START (R31), bit 1 STEP (R33); the other bits are ignored. -/
def ctrlWrite (v : U32) (s : State) : Host.Outcome State Fault Refusal :=
  match v.getLsbD 0, v.getLsbD 1 with
  | false, false => .next s
  | true, false => .next (startRun s)
  | false, true => singleStep s
  | true, true => ctrlBoth (Config.ctrlBothBits s.draws) (s.withDraws (s.draws + 1))

/-- The effect of a write that reaches its register (R23, R25, R29). An out-of-range data write and a push on a full
stack are ignored: host operations never fault. -/
def hostWriteReg (r : HostReg) (v : U32) (s : State) : Host.Outcome State Fault Refusal :=
  match r with
  | .ctrl => ctrlWrite v s
  | .progLen => .next (if v.toNat ≤ s.cfg.progMax then s.withProgLen v else s)
  | .stepRecLo => .next (s.withStepRecLo v)
  | .stepRecHi => .next (s.withStepRecHi (BitVec.setWidth 8 v))
  | .progAddr => .next (s.withProgAddr v)
  | .progData =>
    .next (if s.progAddr.toNat < s.cfg.progMax
      then s.withProg (s.prog.write s.progAddr.toNat (BitVec.setWidth 8 v)) else s)
  | .memAddr => .next (s.withMemAddr v)
  | .memData =>
    .next (if inBounds s.cfg s.memAddr.toNat then s.withMem (s.mem.write s.memAddr.toNat v) else s)
  | .stackPush => .next (if s.stackFull then s else s.pushValue v)
  | .stackIndex => .next (s.withStackIndex v)
  | .status | .faultCode | .faultPc | .faultOpcode | .faultAddr | .faultOp | .memSize | .pc | .sp | .stackData =>
    .next s

/-- A host write of `v` to a register (R23): ignored where the register is not writable. -/
def hostWrite (r : HostReg) (v : U32) (s : State) : Host.Outcome State Fault Refusal :=
  if hostWritable r s.status then hostWriteReg r v s else .next s

/-! ## The block and its host, one input at a time -/

/-- What may happen to the block (R39): a step of its own, or an act of the host. -/
inductive Input where
  | tick
  | write (r : HostReg) (v : U32)
  | read (r : HostReg)
  | reset
  deriving DecidableEq, Repr

/-- The block's answer to one input. A host read changes nothing; one with no defined value is refused (log 9). -/
def react (i : Input) (s : State) : Host.Outcome State Fault Refusal :=
  match i with
  | .tick => step s
  | .write r v => hostWrite r v s
  | .read r =>
    match hostRead r s with
    | some _ => .next s
    | none => .refused (.noDefinedValue r)
  | .reset => .next (hardReset s)

/-- A list of inputs, in order, up to the first stop. -/
def reactAll : List Input → State → Host.Outcome State Fault Refusal
  | [], s => .next s
  | i :: rest, s =>
    match react i s with
    | .next t => reactAll rest t
    | .fault e => .fault e
    | .refused e => .refused e

/-! ## Boot (R125, R126) -/

/-- The host's writes of the bytes `p` to the program store from offset `i` on (R125, step 2). -/
def loadBytes : Nat → List Byte → List Input
  | _, [] => []
  | i, b :: rest =>
    .write .progAddr (BitVec.ofNat 32 i) :: .write .progData (BitVec.setWidth 32 b) :: loadBytes (i + 1) rest

/-- R125, steps 1 to 4: reset, write the program, write PROG_LEN, write 1 to CTRL.START. -/
def bootScript (p : List Byte) : List Input :=
  .reset :: (loadBytes 0 p ++ [.write .progLen (BitVec.ofNat 32 p.length), .write .ctrl 1])

/-- The host's pre-seeding writes of data-memory cells (R126, step 2). -/
def seedCells : List (U32 × I32) → List Input
  | [] => []
  | (a, v) :: rest => .write .memAddr a :: .write .memData v :: seedCells rest

/-- The host's pre-seeding pushes, bottom entry first (R126, step 2). -/
def seedStack : List I32 → List Input
  | [] => []
  | v :: rest => .write .stackPush v :: seedStack rest

/-- R126, steps 1 to 4: reset, pre-seed memory and stack, write the record to STEP_REC, write 1 to CTRL.STEP. -/
def stepScript (cells : List (U32 × I32)) (stack : List I32) (r : Record) : List Input :=
  .reset :: (seedCells cells ++ seedStack stack ++
    [.write .stepRecLo (BitVec.setWidth 32 r.word), .write .stepRecHi (BitVec.setWidth 32 r.b4), .write .ctrl 2])

/-! ## The result (R36) -/

/-- `Snapshot(M)` (R36): every cell below `size` whose value is not 0, in ascending address order, as a signed value.
Its rows are those of the host's result file (30_encoding.md R87). -/
def snapshotOf (size : Nat) (m : Memory) : List (Nat × Int) :=
  (List.range size).filterMap fun a => if m.read a = 0 then none else some (a, (m.read a).toInt)

/-- The result of a run: defined only in DONE (R36, R129); a faulted run has none (R38), and the stack is not part of
it (R37). -/
def snapshot (s : State) : Option (List (Nat × Int)) :=
  if s.status = .done then some (snapshotOf s.cfg.memSize s.mem) else none

end Sys2Proof.Machine
end

