-- ==== Sys2Proof/Safety.lean ====
section
/-! DEFINITION. What every run keeps, which states a block can be in, and what a safe run is, in the terms the
statements use.
-/

namespace Sys2Proof.Machine

/-- One row of the table of 60_exceptions.md R101: what a fault record with this code holds, in an instance with
parameters `c` and a program of length `progLen`. -/
def FaultRecord.matchesTable (c : Config) (progLen : U32) (f : FaultRecord) : Prop :=
  match f.code with
  | .noFault => f = FaultRecord.empty
  | .malformedStream =>
    progLen.toNat % 5 ≠ 0 ∧ f.pc = 0 ∧ f.opcode = 0 ∧ f.addr = progLen ∧ f.op = .noOp
  | .unknownOpcode =>
    f.opcode ∉ [opLoadConst, opSgn, opWriteMem, opReadMem] ∧ f.addr = 0 ∧ f.op = .noOp
  | .outOfBounds =>
    c.memSize ≤ f.addr.toNat ∧ (f.opcode = opReadMem ∧ f.op = .read ∨ f.opcode = opWriteMem ∧ f.op = .write)
  | .stackUnderflow => (f.opcode = opWriteMem ∨ f.opcode = opSgn) ∧ f.addr = 0 ∧ f.op = .noOp
  | .stackOverflow =>
    c.stackDepth ≠ none ∧ (f.opcode = opLoadConst ∨ f.opcode = opReadMem) ∧ f.addr = 0 ∧ f.op = .noOp
  | .illegalOperand => c.sgnOperandCheck = true ∧ f.opcode = opSgn ∧ f.addr = 0 ∧ f.op = .noOp

/-- What holds in every state a block can be in. -/
structure State.Inv (s : State) : Prop where
  /-- The parameters are in the ranges of R5, R6, R7. -/
  cfg : s.cfg.wf = true
  /-- Data memory is canonical, and no cell outside `MEM_SIZE` is listed (R14, R56). -/
  mem : s.mem.wf s.cfg.memSize = true
  /-- The program store is canonical and within `PROG_MAX` (R7). -/
  prog : s.prog.wf s.cfg.progMax = true
  /-- The stack is within its capacity (R6). -/
  depth : ∀ d, s.cfg.stackDepth = some d → s.stack.length ≤ d
  /-- PROG_LEN is at most `PROG_MAX` (R25). -/
  progLen : s.progLen.toNat ≤ s.cfg.progMax
  /-- `pc` is 0 in IDLE (R17). -/
  idle : s.status = .idle → s.pc = 0
  /-- In a run `pc` is at a record that lies within the program (R19, R45). -/
  running : s.status = .running →
    s.pc.toNat % 5 = 0 ∧ s.progLen.toNat % 5 = 0 ∧ s.pc.toNat + 5 ≤ s.progLen.toNat
  /-- In DONE `pc` is at the end of the program (R21, R32). -/
  done : s.status = .done → s.progLen.toNat % 5 = 0 ∧ s.pc = s.progLen
  /-- In FAULT the record holds a code, and its pc is `pc` (R22, R112). -/
  fault : s.status = .fault → s.fault.code ≠ .noFault ∧ s.fault.pc = s.pc
  /-- Outside FAULT the record is row 0 of R101's table (R22). -/
  noFault : s.status ≠ .fault → s.fault = FaultRecord.empty
  /-- In FAULT `pc` is still a record offset within the program (R18, R45, R112). -/
  faultPc : s.status = .fault → s.pc.toNat % 5 = 0 ∧ s.pc.toNat ≤ s.progLen.toNat
  /-- The record is a row of R101's table. -/
  record : s.fault.matchesTable s.cfg s.progLen

/-- The states a block can be in: what reset leaves in an instance with legal parameters, and what any input makes of
such a state. -/
inductive Reachable : State → Prop where
  | reset (c : Config) (h : c.wf = true) : Reachable (State.resetWith c)
  | input (i : Input) (s t : State) (hs : Reachable s) (h : react i s = .next t) : Reachable t

/-- The clean launch state (10_state.md R40): what reset leaves, with a program loaded and nothing else written. -/
def State.cleanLaunch (s : State) : Prop :=
  s.status = .idle ∧ s.fault = FaultRecord.empty ∧ s.pc = 0 ∧ s.stack = [] ∧ s.mem = ⟨[]⟩

/-- Every byte below PROG_LEN has been written by the host (R39, load; R123). -/
def State.programWritten (s : State) : Prop := ∀ i, i < s.progLen.toNat → s.prog.read i ≠ none

/-- A run that ends: some number of steps, at most `bound`, leads to DONE or FAULT (60_exceptions.md R116). -/
def endsWithin (bound : Nat) (s : State) : Prop :=
  ∃ k t, k ≤ bound ∧ Host.Core.run Sys2Proof.core k s = .next t ∧ (t.status = .done ∨ t.status = .fault)

/-- The instructions of a list executed in order, up to the first stop. A fault, once raised, stays in the status. -/
def execAll : List Instr → State → Host.Outcome State Fault Refusal
  | [], s => .next s
  | i :: rest, s =>
    match exec i s with
    | .next t => execAll rest t
    | .fault e => .fault e
    | .refused e => .refused e

/-- The effect of a completed instruction on the stack depth (40_data_movement.md R97). -/
def depthEffect : Instr → Int
  | .loadConst _ => 1
  | .readMem _ => 1
  | .writeMem _ => -1
  | .sgn _ => 0

end Sys2Proof.Machine
end

