-- ==== Sys2Proof/Certificates/Slice0/Obligations.lean ====
section
/-! DEFINITION. The statements about the model: one `def Obligations.<Name> : Prop` for each entry of OBLIGATIONS.json.
-/

open Sys2Proof Sys2Proof.Machine

/-! ## Reset and the invariant -/

/-- R122: from any state, reset puts every piece of state in the value its table gives; MEM_SIZE is not changed, no
program byte has a value, and CTRL reads 0. -/
def Obligations.ResetPutsEveryPieceOfStateInItsValue : Prop :=
  ∀ s : State, ∃ t, react .reset s = .next t ∧
    t.status = .idle ∧ t.pc = 0 ∧ t.stack = [] ∧ (∀ a, t.mem.read a = 0) ∧ t.cfg = s.cfg ∧
    t.fault = ⟨.noFault, 0, 0, 0, .noOp⟩ ∧ t.progLen = 0 ∧ t.stepRecLo = 0 ∧ t.stepRecHi = 0 ∧
    t.progAddr = 0 ∧ t.memAddr = 0 ∧ t.stackIndex = 0 ∧ hostRead .ctrl t = some 0 ∧
    (∀ i, t.prog.read i = none) ∧ hostRead .memSize State.reset = some 1024

/-- The invariant holds after reset, in every instance with legal parameters. -/
def Obligations.ResetStateIsConsistent : Prop :=
  (∀ c : Config, c.wf = true → (State.resetWith c).Inv) ∧ State.reset.Inv

/-- Every step keeps the invariant: canonical memory and program store, the stack within its depth, `pc` at a record
within the program, the fault record a row of R101's table. -/
def Obligations.StepKeepsConsistency : Prop :=
  ∀ s t : State, s.Inv → step s = .next t → t.Inv

/-- Every input keeps the invariant: a step, any host write, any host read, reset. -/
def Obligations.EveryInputKeepsConsistency : Prop :=
  ∀ (i : Input) (s t : State), s.Inv → react i s = .next t → t.Inv

/-- R19: in every reachable state `pc` is a multiple of 5 and at most PROG_LEN, a run's next record lies within the
program, a step that completes moves `pc` on by 5 without wrapping, and the run ends when `pc` reaches PROG_LEN. -/
def Obligations.PcNeverWrapsOrPassesProgLen : Prop :=
  ∀ s : State, Reachable s →
    s.pc.toNat % 5 = 0 ∧ s.pc.toNat ≤ s.progLen.toNat ∧
    (s.status = .running → s.progLen.toNat % 5 = 0 ∧ s.pc.toNat + 5 ≤ s.progLen.toNat) ∧
    step s ≠ .fault .fetchPastEnd ∧
    ∀ t, step s = .next t → t.status ≠ .fault →
      t.pc.toNat = s.pc.toNat + 5 ∧ (t.status = .done ↔ t.pc = t.progLen)

/-! ## The decoder and the encoder -/

/-- Decoding the encoding of a well-formed instruction gives it back, at every operand value. -/
def Obligations.DecodeOfEncodeIsTheInstruction : Prop :=
  ∀ i : Instr, wellFormed i = true → decode (encode i) = .instr i

/-- A record that decodes to an instruction is that instruction's encoding: no bit of the record is dropped, and the
decoded operand is in its range. -/
def Obligations.EncodeOfDecodeIsTheRecord : Prop :=
  ∀ (r : Record) (i : Instr), decode r = .instr i → wellFormed i = true ∧ encode i = r

/-- R64, R65, R68, R69: the decoder's result from the five bytes: the opcode byte alone selects the instruction, the
operand is little-endian, signed for LOAD_CONST and unsigned otherwise; every other opcode byte is unknown, by name. -/
def Obligations.DecoderReadsOpcodeAndTypedOperand : Prop :=
  ∀ (r : Record) (u : Nat),
    u = r.b1.toNat + 256 * r.b2.toNat + 65536 * r.b3.toNat + 16777216 * r.b4.toNat →
    (r.b0 = 0x00 → decode r = .instr (.loadConst (if u < 2147483648 then (u : Int) else (u : Int) - 4294967296))) ∧
    (r.b0 = 0xCE → decode r = .instr (.readMem u)) ∧
    (r.b0 = 0xA2 → decode r = .instr (.writeMem u)) ∧
    (r.b0 = 0x01 → decode r = .instr (.sgn u)) ∧
    (r.b0 ∉ [0x00, 0xCE, 0xA2, 0x01] → decode r = .unknown r.b0)

/-- The written-out records of 95_test_vectors.md section 2.1 decode as it says. -/
def Obligations.WrittenOutRecordsDecode : Prop :=
  decode ⟨0x00, 0x00, 0x00, 0x00, 0x80⟩ = .instr (.loadConst (-2147483648)) ∧
  decode ⟨0x00, 0x40, 0x42, 0x0F, 0x00⟩ = .instr (.loadConst 1000000) ∧
  decode ⟨0xCE, 0xFF, 0xFF, 0xFF, 0xFF⟩ = .instr (.readMem 4294967295) ∧
  decode ⟨0xA2, 0x00, 0x00, 0x01, 0x00⟩ = .instr (.writeMem 65536) ∧
  decode ⟨0x01, 0xFF, 0xFF, 0xFF, 0xFF⟩ = .instr (.sgn 4294967295) ∧
  decode ⟨0xCF, 0x00, 0x00, 0x00, 0x00⟩ = .unknown 0xCF

/-- R70: each of the 252 reserved opcode bytes, with any operand, raises UnknownOpcode naming the byte, and nothing is
executed after it: no step follows. -/
def Obligations.ReservedOpcodeRaisesUnknownOpcode : Prop :=
  ∀ (r : Record) (s : State), r.b0 ∉ [0x00, 0x01, 0xA2, 0xCE] →
    ∃ t, executeRecord r s = .next t ∧
      t = { s with status := .fault, fault := ⟨.unknownOpcode, s.pc, r.b0, 0, .noOp⟩ } ∧
      ∀ u, step t ≠ .next u

/-! ## The instructions: where each completes, with its frame -/

/-- LOAD_CONST completes on a stack with room: the constant is on top, and nothing else changes (R93). -/
def Obligations.LoadConstPushesItsConstant : Prop :=
  ∀ (c : Int) (s : State), wellFormed (.loadConst c) = true →
    (∀ d, s.cfg.stackDepth = some d → s.stack.length < d) →
    ∃ (v : I32) (t : State), exec (.loadConst c) s = .next t ∧ v.toInt = c ∧
      t = { s with stack := s.stack ++ [v] } ∧ ∀ a, t.mem.read a = s.mem.read a

/-- READ_MEM completes on an address in bounds and a stack with room: the cell is on top, and nothing else changes
(R94). -/
def Obligations.ReadMemPushesTheCell : Prop :=
  ∀ (a : Nat) (s : State), wellFormed (.readMem a) = true → a < s.cfg.memSize →
    (∀ d, s.cfg.stackDepth = some d → s.stack.length < d) →
    ∃ t : State, exec (.readMem a) s = .next t ∧
      t = { s with stack := s.stack ++ [s.mem.read a] } ∧ ∀ b, t.mem.read b = s.mem.read b

/-- WRITE_MEM completes on an address in bounds and a stack that is not empty: the top is popped and stored whole at
the effective address; every other cell and everything else is unchanged (R95). -/
def Obligations.WriteMemStoresThePoppedTop : Prop :=
  ∀ (a : Nat) (s : State) (rest : List I32) (v : I32), wellFormed (.writeMem a) = true →
    s.mem.wf s.cfg.memSize = true → a < s.cfg.memSize → s.stack = rest ++ [v] →
    ∃ t : State, exec (.writeMem a) s = .next t ∧ t = { s with stack := rest, mem := t.mem } ∧
      t.mem.read (effectiveAddress a) = v ∧
      ∀ b, b ≠ effectiveAddress a → t.mem.read b = s.mem.read b

/-- SGN completes on a stack that is not empty, where its operand is not checked or is 0: the top becomes its sign
`(v > 0) - (v < 0)`, and nothing else changes (R98, R99). -/
def Obligations.SgnReplacesTheTopByItsSign : Prop :=
  ∀ (u : Nat) (s : State) (rest : List I32) (v : I32), wellFormed (.sgn u) = true →
    (s.cfg.sgnOperandCheck = false ∨ u = 0) → s.stack = rest ++ [v] →
    ∃ (w : I32) (t : State), exec (.sgn u) s = .next t ∧
      w.toInt = (if v.toInt > 0 then 1 else 0) - (if v.toInt < 0 then 1 else 0) ∧
      t = { s with stack := rest ++ [w] } ∧ ∀ a, t.mem.read a = s.mem.read a

/-! ## The instructions: the whole rule, from the record -/

/-- R93: what a record with opcode 0x00 does in every state whose stack is within its capacity, and the assembler's
`LOAD_CONST`. -/
def Obligations.LoadConstRecordExecutesItsRule : Prop :=
  (∀ (r : Record) (s : State), r.b0 = 0x00 → (∀ d, s.cfg.stackDepth = some d → s.stack.length ≤ d) →
    ∃ v : I32, v = r.b4 ++ (r.b3 ++ (r.b2 ++ r.b1)) ∧
      executeRecord r s = .next
        (if s.cfg.stackDepth = some s.stack.length then
          { s with status := .fault, fault := ⟨.stackOverflow, s.pc, 0x00, 0, .noOp⟩ }
        else { s with stack := s.stack ++ [v] })) ∧
  ∀ (t : Text) (ops : List Text) (c : Int), parseInteger t = some c → -2147483648 ≤ c → c ≤ 2147483647 →
    assembleInstr mnLoadConst (t :: ops) = .ok (.loadConst c) ∧ (encode (.loadConst c)).b0 = 0x00

/-- R94: what a record with opcode 0xCE does in every state whose stack is within its capacity, and the assembler's
`READ_MEM`. -/
def Obligations.ReadMemRecordExecutesItsRule : Prop :=
  (∀ (r : Record) (s : State), r.b0 = 0xCE → (∀ d, s.cfg.stackDepth = some d → s.stack.length ≤ d) →
    ∃ a : U32, a = r.b4 ++ (r.b3 ++ (r.b2 ++ r.b1)) ∧
      executeRecord r s = .next
        (if s.cfg.memSize ≤ a.toNat then
          { s with status := .fault, fault := ⟨.outOfBounds, s.pc, 0xCE, a, .read⟩ }
        else if s.cfg.stackDepth = some s.stack.length then
          { s with status := .fault, fault := ⟨.stackOverflow, s.pc, 0xCE, 0, .noOp⟩ }
        else { s with stack := s.stack ++ [s.mem.read a.toNat] })) ∧
  ∀ (t : Text) (ops : List Text) (a : Nat), parseInteger t = some (a : Int) → a ≤ 4294967295 →
    assembleInstr mnReadMem (t :: ops) = .ok (.readMem a) ∧ (encode (.readMem a)).b0 = 0xCE

/-- R95: what a record with opcode 0xA2 does in every state with a canonical memory, and the assembler's
`WRITE_MEM`. The bounds check comes before the stack is touched. -/
def Obligations.WriteMemRecordExecutesItsRule : Prop :=
  (∀ (r : Record) (s : State), r.b0 = 0xA2 → s.mem.wf s.cfg.memSize = true →
    ∃ (a : U32) (t : State), a = r.b4 ++ (r.b3 ++ (r.b2 ++ r.b1)) ∧ executeRecord r s = .next t ∧
      if s.cfg.memSize ≤ a.toNat then
        t = { s with status := .fault, fault := ⟨.outOfBounds, s.pc, 0xA2, a, .write⟩ }
      else
        match s.stack.getLast? with
        | none => t = { s with status := .fault, fault := ⟨.stackUnderflow, s.pc, 0xA2, 0, .noOp⟩ }
        | some v =>
          t = { s with stack := s.stack.dropLast, mem := t.mem } ∧
          ∀ b, t.mem.read b = if b = a.toNat then v else s.mem.read b) ∧
  ∀ (t : Text) (ops : List Text) (a : Nat), parseInteger t = some (a : Int) → a ≤ 4294967295 →
    assembleInstr mnWriteMem (t :: ops) = .ok (.writeMem a) ∧ (encode (.writeMem a)).b0 = 0xA2

/-- R98: what a record with opcode 0x01 does in every state, and the assembler's `SGN`. -/
def Obligations.SgnRecordExecutesItsRule : Prop :=
  (∀ (r : Record) (s : State), r.b0 = 0x01 →
    ∃ u : U32, u = r.b4 ++ (r.b3 ++ (r.b2 ++ r.b1)) ∧
      executeRecord r s = .next
        (if s.cfg.sgnOperandCheck = true ∧ u ≠ 0 then
          { s with status := .fault, fault := ⟨.illegalOperand, s.pc, 0x01, 0, .noOp⟩ }
        else
          match s.stack.getLast? with
          | none => { s with status := .fault, fault := ⟨.stackUnderflow, s.pc, 0x01, 0, .noOp⟩ }
          | some v =>
            { s with stack := s.stack.dropLast ++
                [if v.toInt > 0 then BitVec.ofInt 32 1 else if v.toInt < 0 then BitVec.ofInt 32 (-1)
                  else BitVec.ofInt 32 0] })) ∧
  ∀ ops : List Text, assembleInstr mnSgn ops = .ok (.sgn 0) ∧ encode (.sgn 0) = ⟨0x01, 0, 0, 0, 0⟩

/-! ## Faults -/

/-- R56: an access at or above MEM_SIZE raises OutOfBounds naming the address and the operation, for any memory size,
whatever the stack holds; no cell is read or written. -/
def Obligations.OutOfBoundsAccessAlwaysFaults : Prop :=
  ∀ (a : U32) (s : State), s.cfg.memSize ≤ a.toNat →
    exec (.readMem a.toNat) s = .next { s with status := .fault, fault := ⟨.outOfBounds, s.pc, 0xCE, a, .read⟩ } ∧
    exec (.writeMem a.toNat) s = .next { s with status := .fault, fault := ⟨.outOfBounds, s.pc, 0xA2, a, .write⟩ }

/-- R57: the comparator at its edges: no address is in bounds with `MEM_SIZE = 0`, every address with `2^32`, and
0 to 1023 exactly with the default. -/
def Obligations.BoundsComparatorEdgeCases : Prop :=
  (∀ (c : Config) (a : U32), c.memSize = 0 → inBounds c a.toNat = false) ∧
  (∀ (s t : State) (a : U32), s.cfg.memSize = 0 →
    (exec (.readMem a.toNat) s = .next t ∨ exec (.writeMem a.toNat) s = .next t) →
    t.status = .fault ∧ t.fault.code = .outOfBounds) ∧
  (∀ (c : Config) (a : U32), c.memSize = 4294967296 → inBounds c a.toNat = true) ∧
  ∀ a : U32, inBounds Config.default a.toNat = true ↔ a.toNat ≤ 1023

/-- R105: a pop on the empty stack, by WRITE_MEM after its bounds check or by SGN, always raises StackUnderflow. -/
def Obligations.PopOnEmptyStackAlwaysUnderflows : Prop :=
  ∀ s : State, s.stack = [] →
    (∀ a, a < s.cfg.memSize → exec (.writeMem a) s =
      .next { s with status := .fault, fault := ⟨.stackUnderflow, s.pc, 0xA2, 0, .noOp⟩ }) ∧
    ∀ u, (s.cfg.sgnOperandCheck = false ∨ u = 0) → exec (.sgn u) s =
      .next { s with status := .fault, fault := ⟨.stackUnderflow, s.pc, 0x01, 0, .noOp⟩ }

/-- R106: StackOverflow is raised exactly by a LOAD_CONST or an in-bounds READ_MEM whose push would exceed a finite
STACK_DEPTH; never with `INF`. -/
def Obligations.StackOverflowExactlyOnAFullFiniteStack : Prop :=
  ∀ (i : Instr) (s t : State), s.fault = FaultRecord.empty → exec i s = .next t →
    (t.fault.code = .stackOverflow ↔
      (∃ d, s.cfg.stackDepth = some d ∧ d < s.stack.length + 1) ∧
      ((∃ c, i = .loadConst c) ∨ ∃ a, i = .readMem a ∧ a < s.cfg.memSize)) ∧
    (s.cfg.stackDepth = none → t.fault.code ≠ .stackOverflow)

/-- R107: IllegalOperand is raised exactly by an SGN with a non-zero operand where SGN_OPERAND_CHECK is true; with the
default it is never raised. -/
def Obligations.IllegalOperandExactlyOnACheckedSgn : Prop :=
  ∀ (i : Instr) (s t : State), s.fault = FaultRecord.empty → exec i s = .next t →
    (t.fault.code = .illegalOperand ↔ s.cfg.sgnOperandCheck = true ∧ ∃ u, i = .sgn u ∧ u ≠ 0) ∧
    (s.cfg.sgnOperandCheck = Config.default.sgnOperandCheck → t.fault.code ≠ .illegalOperand)

/-- R110: at most one fault is reported, by the table's order of checks. -/
def Obligations.FaultsFollowTheOrderOfChecks : Prop :=
  ∀ (r : Record) (s t : State), s.fault = FaultRecord.empty →
    (∀ d, s.cfg.stackDepth = some d → s.stack.length ≤ d) → executeRecord r s = .next t →
    match decode r with
    | .unknown _ => t.fault.code = .unknownOpcode
    | .instr (.loadConst _) => t.fault.code = if s.cfg.stackDepth = some s.stack.length then .stackOverflow else .noFault
    | .instr (.readMem a) =>
      t.fault.code =
        if s.cfg.memSize ≤ a then .outOfBounds
        else if s.cfg.stackDepth = some s.stack.length then .stackOverflow else .noFault
    | .instr (.writeMem a) =>
      t.fault.code = if s.cfg.memSize ≤ a then .outOfBounds else if s.stack = [] then .stackUnderflow else .noFault
    | .instr (.sgn u) =>
      t.fault.code =
        if s.cfg.sgnOperandCheck = true ∧ u ≠ 0 then .illegalOperand
        else if s.stack = [] then .stackUnderflow else .noFault

/-- R111, R112: a step that raises a fault sets the status and writes a record of R101's table with the faulting
record's offset; `S`, `M`, `pc` and everything else keep their values, and no later instruction starts. -/
def Obligations.FaultEntryIsPrecise : Prop :=
  ∀ s t : State, s.fault = FaultRecord.empty → step s = .next t → t.status = .fault →
    t = { s with status := .fault, fault := t.fault } ∧
    t.stack = s.stack ∧ (∀ a, t.mem.read a = s.mem.read a) ∧ t.pc = s.pc ∧
    t.fault.code ≠ .noFault ∧ t.fault.code ≠ .malformedStream ∧ t.fault.pc = s.pc ∧
    t.fault.matchesTable s.cfg s.progLen ∧ ∀ u, step t ≠ .next u

/-- R113: FAULT is left only by reset: no step has a next state, every host write is ignored (START and STEP among them), and
every input but reset leaves the state, the fault record included, as it is. -/
def Obligations.FaultIsStickyUntilReset : Prop :=
  ∀ s : State, s.status = .fault →
    (∀ t, step s ≠ .next t) ∧ (∀ r v, hostWrite r v s = .next s) ∧
    (∀ i t, react i s = .next t → i = .reset ∨ t = s) ∧
    ∃ t, react .reset s = .next t ∧ t.status = .idle ∧ t.fault.code = .noFault

/-! ## Execute and the run sequencer -/

/-- `Execute` always answers a next state; it writes only `S` and `M`, or raises a fault; it writes neither `pc`, nor
the program store, nor a host register, nor a parameter (R30, R47). -/
def Obligations.ExecuteWritesOnlyStackAndMemory : Prop :=
  ∀ (r : Record) (s : State), ∃ t, executeRecord r s = .next t ∧
    (t = { s with stack := t.stack, mem := t.mem } ∨ t = { s with status := .fault, fault := t.fault }) ∧
    t.pc = s.pc ∧ t.prog = s.prog ∧ t.progLen = s.progLen ∧ t.cfg = s.cfg

/-- `Execute` reads only `S`, `M` and the parameters: two states that agree on them end in the same `S` and `M`, with
the same fault, whatever their `pc`, program store and host registers (R30, R34, R41). -/
def Obligations.ExecuteReadsOnlyStackAndMemory : Prop :=
  ∀ (r : Record) (s s' t t' : State), s.cfg = s'.cfg → s.stack = s'.stack → s.mem = s'.mem →
    s.fault = FaultRecord.empty → s'.fault = FaultRecord.empty →
    executeRecord r s = .next t → executeRecord r s' = .next t' →
    t.stack = t'.stack ∧ t.mem = t'.mem ∧ t.fault.code = t'.fault.code ∧ t.fault.opcode = t'.fault.opcode ∧
      t.fault.addr = t'.fault.addr ∧ t.fault.op = t'.fault.op

/-- No instruction reaches a stack entry below the top: all but the top of the old stack stays at the bottom of the new
one, and the entries below the top do not change what happens above them (R12). -/
def Obligations.InstructionsReachOnlyTheTop : Prop :=
  (∀ (i : Instr) (s t : State), exec i s = .next t → s.stack.dropLast <+: t.stack) ∧
  ∀ (i : Instr) (s t : State) (low low' up : List I32), up ≠ [] → low.length = low'.length →
    s.stack = low ++ up → exec i s = .next t →
    ∃ up', t.stack = low ++ up' ∧
      exec i { s with stack := low' ++ up } = .next { t with stack := low' ++ up' }

/-- One step of a run is `Execute` on the record whose bytes stand at `pc` (R32). Where they decode to an instruction
that is its `exec`, where the opcode byte is reserved it is UnknownOpcode (R66). A fault ends the run there; otherwise
`pc` moves on by 5, and the state is DONE at the end of the program. -/
def Obligations.StepRunsTheDecodedInstruction : Prop :=
  ∀ (s : State) (r : Record), s.status = .running → s.pc.toNat + 5 ≤ s.progLen.toNat →
    s.prog.read s.pc.toNat = some r.b0 → s.prog.read (s.pc.toNat + 1) = some r.b1 →
    s.prog.read (s.pc.toNat + 2) = some r.b2 → s.prog.read (s.pc.toNat + 3) = some r.b3 →
    s.prog.read (s.pc.toNat + 4) = some r.b4 →
    (∀ u, executeRecord r s = .next u → step s = .next
      (if u.status = .fault then u
      else if s.pc + 5 = s.progLen then { u with pc := s.pc + 5, status := .done }
      else { u with pc := s.pc + 5 })) ∧
    (∀ i u, decode r = .instr i → exec i s = .next u → step s = .next
      (if u.status = .fault then u
      else if s.pc + 5 = s.progLen then { u with pc := s.pc + 5, status := .done }
      else { u with pc := s.pc + 5 })) ∧
    ∀ op, decode r = .unknown op →
      step s = .next { s with status := .fault, fault := ⟨.unknownOpcode, s.pc, op, 0, .noOp⟩ }

/-- A run makes one step per record: after `k` steps that raised no fault, `pc` has moved on by `5k`, and the run is
DONE exactly when `k` is the number of records that were left (R32). -/
def Obligations.RunOfRecordsTakesOneStepEach : Prop :=
  ∀ (k : Nat) (s t : State), s.Inv → s.status = .running →
    Host.Core.run Sys2Proof.core k s = .next t → t.status ≠ .fault →
    t.pc.toNat = s.pc.toNat + 5 * k ∧ k ≤ (s.progLen.toNat - s.pc.toNat) / 5 ∧
    (t.status = .done ↔ k = (s.progLen.toNat - s.pc.toNat) / 5)

/-- Every run ends, in DONE or FAULT, within as many steps as records are left, when the host has written the whole
program (R116, R39). -/
def Obligations.EveryRunEnds : Prop :=
  ∀ s : State, s.Inv → s.status = .running → s.programWritten →
    endsWithin ((s.progLen.toNat - s.pc.toNat) / 5) s

/-- R123: a run whose fetch reads a byte the host has not written has no meaning: the step is refused by name, whichever
of the five bytes it is (log 6). -/
def Obligations.FetchOfAnUnwrittenByteIsRefused : Prop :=
  ∀ (s : State) (k : Nat), s.status = .running → s.pc.toNat + 5 ≤ s.progLen.toNat → k < 5 →
    s.prog.read (s.pc.toNat + k) = none → step s = .refused (.unwrittenProgramByte s.pc.toNat)

/-- Outside RUNNING no step is enabled: the step stops by name and the halt states stay as they are (R32, R121;
log 4). -/
def Obligations.NoStepOutsideARun : Prop :=
  ∀ s : State,
    (s.status = .idle → step s = .fault .notStarted) ∧
    (s.status = .done → step s = .fault .haltedDone) ∧
    (s.status = .fault → step s = .fault .haltedFault) ∧
    ∀ t, step s = .next t → s.status = .running

/-! ## The host port -/

/-- R31: a write of 1 to CTRL.START in IDLE: MalformedStream where PROG_LEN is no multiple of 5, DONE where it is 0,
else RUNNING. -/
def Obligations.StartChecksTheFramingFirst : Prop :=
  ∀ (s : State) (v : U32), s.status = .idle → v.getLsbD 0 = true → v.getLsbD 1 = false →
    hostWrite .ctrl v s = .next
      (if s.progLen.toNat % 5 ≠ 0 then
        { s with status := .fault, fault := ⟨.malformedStream, s.pc, 0, s.progLen, .noOp⟩ }
      else if s.progLen.toNat = 0 then { s with status := .done }
      else { s with status := .running })

/-- R33, R34: a write of 1 to CTRL.STEP in IDLE is `Execute`, once, on the record in STEP_REC: the state stays IDLE on
completion, and is FAULT with `fault.pc = 0` on a fault; `pc` and PROG_LEN are neither used nor written, and
MalformedStream is never raised. -/
def Obligations.SingleStepExecutesTheStepRecord : Prop :=
  ∀ (s : State) (v : U32) (r : Record), s.Inv → s.status = .idle → v.getLsbD 0 = false → v.getLsbD 1 = true →
    (r.b0 = s.stepRecLo.extractLsb' 0 8 ∧ r.b1 = s.stepRecLo.extractLsb' 8 8 ∧
      r.b2 = s.stepRecLo.extractLsb' 16 8 ∧ r.b3 = s.stepRecLo.extractLsb' 24 8 ∧ r.b4 = s.stepRecHi) →
    hostWrite .ctrl v s = executeRecord r s ∧
    ∃ t, executeRecord r s = .next t ∧ t.pc = s.pc ∧ t.progLen = s.progLen ∧
      (t.status = .idle ∨ t.status = .fault ∧ t.fault.pc = 0) ∧ t.fault.code ≠ .malformedStream ∧
      ∀ p n, executeRecord r { s with pc := p, progLen := n } =
        .next { t with pc := p, progLen := n, fault := if t.status = .fault then { t.fault with pc := p } else t.fault }

/-- A write of both CTRL bits in IDLE does one of the four things the model's free choice allows, whatever that choice
is (log 3: the spec gives the two bits no order). -/
def Obligations.BothCtrlBitsDoOneOfFourThings : Prop :=
  ∀ (s : State) (v : U32), s.status = .idle → v.getLsbD 0 = true → v.getLsbD 1 = true →
    let d := { s with draws := s.draws + 1 }
    hostWrite .ctrl v s = .next d ∨ hostWrite .ctrl v s = hostWrite .ctrl 1 d ∨
    hostWrite .ctrl v s = hostWrite .ctrl 2 d ∨ hostWrite .ctrl v s = reactAll [.write .ctrl 2, .write .ctrl 1] d

/-- R35: a write to CTRL outside IDLE is ignored; DONE and FAULT become usable again only by reset. -/
def Obligations.CtrlIsIgnoredOutsideIdle : Prop :=
  (∀ (s : State) (v : U32), s.status ≠ .idle → hostWrite .ctrl v s = .next s) ∧
  ∀ (s t : State) (i : Input), s.status = .done ∨ s.status = .fault → react i s = .next t → i ≠ .reset →
    t.status = s.status ∧ t.pc = s.pc ∧ t.stack = s.stack ∧ t.mem = s.mem

/-- R27: while RUNNING every host write is ignored, and every host read of CR13 to CR19 has no defined value. -/
def Obligations.RunningIgnoresTheHost : Prop :=
  ∀ (s : State) (r : HostReg), s.status = .running →
    (∀ v, hostWrite r v s = .next s) ∧ (13 ≤ r.number → hostRead r s = none)

/-- R28: in FAULT exactly CR1 to CR12 can be read. -/
def Obligations.FaultStateShowsOnlyCr1ToCr12 : Prop :=
  ∀ (s : State) (r : HostReg), s.status = .fault →
    ((hostRead r s).isSome = true ↔ 1 ≤ r.number ∧ r.number ≤ 12)

/-- R48: the program store and PROG_LEN do not change while RUNNING, by any input but reset. -/
def Obligations.ProgramIsConstantWhileRunning : Prop :=
  ∀ (i : Input) (s t : State), s.status = .running → react i s = .next t → i ≠ .reset →
    t.prog = s.prog ∧ t.progLen = s.progLen

/-- R24: MEM_SIZE is read-only and a property of the instance: no input at all, reset included, changes it or any other
parameter. -/
def Obligations.ParametersNeverChange : Prop :=
  (∀ (i : Input) (s t : State), react i s = .next t → t.cfg = s.cfg) ∧
  ∀ (s : State) (v : U32), hostRead .memSize s = some s.cfg.memSize ∧ hostWrite .memSize v s = .next s

/-- R26: PC and SP are read-only views of `pc` and `S.len`. -/
def Obligations.PcAndSpAreReadOnlyViews : Prop :=
  ∀ (s : State) (v : U32), hostRead .pc s = some s.pc.toNat ∧ hostRead .sp s = some s.stack.length ∧
    hostWrite .pc v s = .next s ∧ hostWrite .sp v s = .next s

/-- R25: PROG_LEN takes every value up to PROG_MAX in IDLE, multiple of 5 or not, ignores a larger one, reads back in
every state, and a length that is no multiple of 5 makes the next run fault with MalformedStream. -/
def Obligations.ProgLenWritesUpToProgMax : Prop :=
  ∀ (s : State) (v : U32), hostRead .progLen s = some s.progLen.toNat ∧
    (s.status = .idle →
      hostWrite .progLen v s = .next (if v.toNat ≤ s.cfg.progMax then { s with progLen := v } else s) ∧
      (s.cfg.progMax < v.toNat → reactAll [.write .progLen v] s = .next s) ∧
      (v.toNat ≤ s.cfg.progMax → v.toNat % 5 ≠ 0 → ∃ t, reactAll [.write .progLen v, .write .ctrl 1] s = .next t ∧
        t.status = .fault ∧ t.fault.code = .malformedStream ∧ t.fault.addr = v))

/-- R29: out-of-range data reads have no defined value, out-of-range data writes and a push on a full finite stack are
ignored; a host operation on the data ports never raises a fault. -/
def Obligations.DataPortsOutOfRange : Prop :=
  ∀ (s : State) (v : U32),
    (s.cfg.memSize ≤ s.memAddr.toNat → hostRead .memData s = none ∧ hostWrite .memData v s = .next s) ∧
    (s.cfg.progMax ≤ s.progAddr.toNat → hostRead .progData s = none ∧ hostWrite .progData v s = .next s) ∧
    (s.stack.length ≤ s.stackIndex.toNat → hostRead .stackData s = none) ∧
    (∀ d, s.cfg.stackDepth = some d → s.stack.length = d → hostWrite .stackPush v s = .next s) ∧
    ∀ r ∈ [HostReg.memData, .progData, .stackPush], ∃ t, hostWrite r v s = .next t ∧
      t.status = s.status ∧ t.fault = s.fault

/-- The data ports in range, in IDLE (R23): what the host writes through MEM_DATA, PROG_DATA and STACK_PUSH is what it
reads back, and no other cell, byte or entry changes. -/
def Obligations.DataPortsWriteThenRead : Prop :=
  ∀ (s : State) (a v : U32), s.Inv → s.status = .idle →
    (a.toNat < s.cfg.memSize → ∃ t, reactAll [.write .memAddr a, .write .memData v] s = .next t ∧
      hostRead .memData t = some v.toNat ∧ ∀ b, b ≠ a.toNat → t.mem.read b = s.mem.read b) ∧
    (a.toNat < s.cfg.progMax → ∃ t, reactAll [.write .progAddr a, .write .progData v] s = .next t ∧
      hostRead .progData t = some (v.toNat % 256) ∧ ∀ b, b ≠ a.toNat → t.prog.read b = s.prog.read b) ∧
    ((∀ d, s.cfg.stackDepth = some d → s.stack.length < d) → s.stack.length < 4294967296 →
      ∃ t, reactAll [.write .stackPush v, .write .stackIndex (BitVec.ofNat 32 s.stack.length)] s = .next t ∧
        hostRead .stackData t = some v.toNat ∧ t.stack = s.stack ++ [v] ∧ t.mem = s.mem)

/-- STATUS and the fault registers CR2 to CR6 read, in every state, as R23 and R101 encode the fields they show; a code
above 6 and an operation 3 are never shown. -/
def Obligations.StatusFieldsShowTheirCodes : Prop :=
  ∀ s : State,
    (hostRead .status s = some 0 ↔ s.status = .idle) ∧ (hostRead .status s = some 1 ↔ s.status = .running) ∧
    (hostRead .status s = some 2 ↔ s.status = .done) ∧ (hostRead .status s = some 3 ↔ s.status = .fault) ∧
    (hostRead .faultCode s = some 0 ↔ s.fault.code = .noFault) ∧
    (hostRead .faultCode s = some 1 ↔ s.fault.code = .malformedStream) ∧
    (hostRead .faultCode s = some 2 ↔ s.fault.code = .unknownOpcode) ∧
    (hostRead .faultCode s = some 3 ↔ s.fault.code = .outOfBounds) ∧
    (hostRead .faultCode s = some 4 ↔ s.fault.code = .stackUnderflow) ∧
    (hostRead .faultCode s = some 5 ↔ s.fault.code = .stackOverflow) ∧
    (hostRead .faultCode s = some 6 ↔ s.fault.code = .illegalOperand) ∧
    (∀ n, hostRead .faultCode s = some n → n ≤ 6) ∧
    hostRead .faultPc s = some s.fault.pc.toNat ∧ hostRead .faultOpcode s = some s.fault.opcode.toNat ∧
    hostRead .faultAddr s = some s.fault.addr.toNat ∧
    (hostRead .faultOp s = some 0 ↔ s.fault.op = .noOp) ∧ (hostRead .faultOp s = some 1 ↔ s.fault.op = .read) ∧
    (hostRead .faultOp s = some 2 ↔ s.fault.op = .write) ∧ ∀ n, hostRead .faultOp s = some n → n ≤ 2

/-- The boot order of R125, for every program of at most PROG_MAX bytes, from any state: the bytes stand in the program
store, PROG_LEN is their number, memory is zero, the stack empty, `pc` 0, and START has taken its effect. -/
def Obligations.BootLoadsAndStartsTheProgram : Prop :=
  ∀ (p : List Byte) (s : State), s.cfg.wf = true → p.length ≤ s.cfg.progMax →
    ∃ t, reactAll (bootScript p) s = .next t ∧
      t.status = (if p.length % 5 ≠ 0 then Status.fault else if p.length = 0 then Status.done else Status.running) ∧
      t.progLen.toNat = p.length ∧ (∀ i, t.prog.read i = p[i]?) ∧ t.pc = 0 ∧ t.stack = [] ∧
      (∀ a, t.mem.read a = 0) ∧ t.cfg = s.cfg

/-! ## Memory and the result -/

/-- R15: a cell changes only by a WRITE_MEM to its address (a run's step, or the single-step entry) or by a host write
in IDLE; besides these only reset, which ends the life of the instance, changes it. -/
def Obligations.CellsChangeOnlyByWritesToThem : Prop :=
  ∀ (i : Input) (s t : State) (a : Nat), s.Inv → react i s = .next t → t.mem.read a ≠ s.mem.read a →
    i = .reset ∨
    (s.status = .idle ∧ (∃ v, i = .write .memData v) ∧ s.memAddr.toNat = a) ∨
    (s.status = .running ∧ i = .tick ∧ ∃ r, fetch s = some r ∧ decode r = .instr (.writeMem a)) ∨
    (s.status = .idle ∧ (∃ v, i = .write .ctrl v) ∧ decode (stepRecord s) = .instr (.writeMem a))

/-- R96: after a WRITE_MEM to `a` that completes, and any instructions but a WRITE_MEM to `a`, a READ_MEM of `a` that
completes pushes the value WRITE_MEM popped; and `LOAD_CONST c; WRITE_MEM a` leaves `M[a] = c`. -/
def Obligations.ReadMemPushesWhatWriteMemPopped : Prop :=
  (∀ (a : Nat) (between : List Instr) (s t u w : State) (v : I32), s.mem.wf s.cfg.memSize = true →
    s.status ≠ .fault → s.stack.getLast? = some v → (∀ i ∈ between, i ≠ .writeMem a) →
    exec (.writeMem a) s = .next t → t.status ≠ .fault →
    execAll between t = .next u → exec (.readMem a) u = .next w → w.status ≠ .fault →
    w.stack = u.stack ++ [v]) ∧
  ∀ (c : Int) (a : Nat) (s : State), s.mem.wf s.cfg.memSize = true → wellFormed (.loadConst c) = true →
    a < s.cfg.memSize → (∀ d, s.cfg.stackDepth = some d → s.stack.length < d) →
    ∃ t, execAll [.loadConst c, .writeMem a] s = .next t ∧ (t.mem.read a).toInt = c ∧ t.stack = s.stack ∧
      t.status = s.status

/-- The depth of the stack after instructions that raised no fault is the count of R97: plus one for each LOAD_CONST and
READ_MEM, minus one for each WRITE_MEM; where the count is 0 the next WRITE_MEM or SGN underflows. -/
def Obligations.StackDepthFollowsTheInstructionCount : Prop :=
  ∀ (is : List Instr) (s t : State), s.status ≠ .fault → execAll is s = .next t → t.status ≠ .fault →
    (t.stack.length : Int) = s.stack.length + (is.map depthEffect).sum ∧
    (s.stack.length + (is.map depthEffect).sum = 0 →
      (∀ a u, a < t.cfg.memSize → exec (.writeMem a) t = .next u → u.fault.code = .stackUnderflow) ∧
      ∀ n u, (t.cfg.sgnOperandCheck = false ∨ n = 0) → exec (.sgn n) t = .next u →
        u.fault.code = .stackUnderflow)

/-- R36: in DONE the snapshot holds exactly the pairs of an address below MEM_SIZE and its cell's signed value where
that value is not 0, in ascending address order; and MEM_DATA shows every cell. -/
def Obligations.SnapshotIsTheNonzeroCellsInOrder : Prop :=
  ∀ s : State, s.Inv → s.status = .done →
    ∃ l, snapshot s = some l ∧ l.Pairwise (fun x y => x.1 < y.1) ∧
      (∀ a v, (a, v) ∈ l ↔ a < s.cfg.memSize ∧ (s.mem.read a).toInt = v ∧ v ≠ 0) ∧
      ∀ a : U32, a.toNat < s.cfg.memSize → ∃ t, hostWrite .memAddr a s = .next t ∧
        hostRead .memData t = some (s.mem.read a.toNat).toNat ∧ t.mem = s.mem ∧ t.status = .done

/-- R38: a run that ends in FAULT has no result, and its memory, stack and program cannot be read. -/
def Obligations.FaultedRunHasNoResult : Prop :=
  ∀ s : State, s.status = .fault → snapshot s = none ∧ hostRead .memData s = none ∧
    hostRead .stackData s = none ∧ hostRead .progData s = none

/-! ## The assembler -/

/-- R85 with R89: an assembled text has one row per non-skipped line, in source-line order, with the line's tokens and
the instruction they assemble to; its bytes are one record per row, in order, and each record decodes to the row's
instruction. The lines are the text cut at every LF, which is the model's choice (log 15). -/
def Obligations.AssembledProgramDecodesToItsLines : Prop :=
  ∀ (src : Text) (rows : List AsmRow), assembleRows src = .ok rows →
    List.intercalate ['\n'] (sourceLines src) = src ∧ (∀ line ∈ sourceLines src, '\n' ∉ line) ∧
    rows.map (fun row => row.mnemonic :: row.operands) =
      ((sourceLines src).map lineTokens).filter
        (fun tokens => decide (tokens ≠ [] ∧ tokens.head?.bind List.head? ≠ some '#')) ∧
    (∀ row ∈ rows, assembleInstr row.mnemonic row.operands = .ok row.instr) ∧
    ∃ bytes rs, assemble src = .ok bytes ∧ recordsOf bytes = some rs ∧
      rs.map decode = rows.map (fun row => .instr row.instr) ∧ bytes.length = 5 * rows.length

/-- R83, R84: a text with a line whose mnemonic is not in the table, or whose operand is missing, not an integer or out
of range, has no output at all. -/
def Obligations.AssemblyErrorsLeaveNoOutput : Prop :=
  ∀ (src line : Text) (m : Text) (ops : List Text), line ∈ sourceLines src → lineTokens line = m :: ops →
    isSkipped (m :: ops) = false →
    (m ∉ [mnLoadConst, mnReadMem, mnWriteMem, mnSgn] ∨
      m = mnLoadConst ∧ (∀ c, integerOperand ops = some c → c < -2147483648 ∨ 2147483647 < c) ∨
      (m = mnReadMem ∨ m = mnWriteMem) ∧ (∀ a, integerOperand ops = some a → a < 0 ∨ 4294967295 < a)) →
    (∃ e, assembleLine line = .error e ∧
      (m ∉ [mnLoadConst, mnReadMem, mnWriteMem, mnSgn] → e = .unknownInstruction m)) ∧
    ∃ e, assemble src = .error e

/-- R75: a blank line or a line whose first non-whitespace character is `#` is skipped wherever it stands. -/
def Obligations.SkippedLinesAddNothing : Prop :=
  ∀ (before after : List Text) (line : Text), isSkipped (lineTokens line) = true →
    assembleLines (before ++ line :: after) = assembleLines (before ++ after)

/-! ## The register map and the result, further -/

/-- R23: what the host writes to STEP_REC_LO, STEP_REC_HI (bits 7:0 only) and PROG_ADDR in IDLE, and to MEM_ADDR and
STACK_INDEX in IDLE or DONE, is what it reads back there, and the write changes nothing else. STEP_REC reads in every
state, PROG_ADDR, MEM_ADDR and STACK_INDEX in IDLE and DONE; STACK_DATA then shows the entry at STACK_INDEX, 0 being
the bottom, and no value past the top. -/
def Obligations.RegistersReadBackWhatWasWritten : Prop :=
  ∀ (s : State) (v : U32),
    (hostRead .stepRecLo s = some s.stepRecLo.toNat ∧ hostRead .stepRecHi s = some s.stepRecHi.toNat) ∧
    (s.status = .idle →
      (∃ t, hostWrite .stepRecLo v s = .next t ∧ t = { s with stepRecLo := v } ∧
        hostRead .stepRecLo t = some v.toNat) ∧
      (∃ t, hostWrite .stepRecHi v s = .next t ∧ t = { s with stepRecHi := t.stepRecHi } ∧
        hostRead .stepRecHi t = some (v.toNat % 256)) ∧
      ∃ t, hostWrite .progAddr v s = .next t ∧ t = { s with progAddr := v } ∧ hostRead .progAddr t = some v.toNat) ∧
    (s.status = .idle ∨ s.status = .done →
      hostRead .progAddr s = some s.progAddr.toNat ∧ hostRead .memAddr s = some s.memAddr.toNat ∧
      hostRead .stackIndex s = some s.stackIndex.toNat ∧
      (∃ t, hostWrite .memAddr v s = .next t ∧ t = { s with memAddr := v } ∧ hostRead .memAddr t = some v.toNat ∧
        (v.toNat < s.cfg.memSize → hostRead .memData t = some (s.mem.read v.toNat).toNat)) ∧
      ∃ t, hostWrite .stackIndex v s = .next t ∧ t = { s with stackIndex := v } ∧
        hostRead .stackIndex t = some v.toNat ∧
        (∀ low x up, s.stack = low ++ x :: up → low.length = v.toNat → hostRead .stackData t = some x.toNat) ∧
        (s.stack.length ≤ v.toNat → hostRead .stackData t = none))

/-- R23's access rule: a write to a read-only register in any state, or to a writable one outside the states named for
it, leaves the whole state as it is. -/
def Obligations.WritesOutsideTheirAccessAreIgnored : Prop :=
  ∀ (s : State) (r : HostReg) (v : U32),
    (r ∈ [HostReg.status, .faultCode, .faultPc, .faultOpcode, .faultAddr, .faultOp, .memSize, .pc, .sp, .stackData] →
      hostWrite r v s = .next s) ∧
    (r ∈ [HostReg.ctrl, .progLen, .stepRecLo, .stepRecHi, .progAddr, .progData, .memData, .stackPush] →
      s.status ≠ .idle → hostWrite r v s = .next s) ∧
    (r ∈ [HostReg.memAddr, .stackIndex] → s.status ≠ .idle → s.status ≠ .done → hostWrite r v s = .next s)

/-- The result in DONE is the model's own list of the memory's cells, read as signed values (the form of that list is
the model's choice, log 8). -/
def Obligations.SnapshotIsTheMemorysOwnList : Prop :=
  ∀ s : State, s.Inv → s.status = .done → snapshot s = some (s.mem.cells.map fun e => (e.1, e.2.toInt))
end

