-- ==== Sys2Proof/Laws/Assembler.lean ====
section
/-! SUPPORT. What the assembler does with one line and with one more line, said once.
-/

namespace Sys2Proof.Machine

theorem splitLines_ne_nil (t cur : Text) : splitLines t cur ≠ [] := by
  induction t generalizing cur with
  | nil => simp [splitLines]
  | cons c cs ih => simp only [splitLines]; split <;> simp [ih]

/-- What a line that assembles gives (30_encoding.md R75, R76, R85): no row when it is skipped, else one row with its
tokens and the instruction they assemble to. -/
theorem assembleLine_ok {line : Text} {row : Option AsmRow} (h : assembleLine line = .ok row) :
    (isSkipped (lineTokens line) = true ∧ row = none) ∨
    ∃ m ops i, lineTokens line = m :: ops ∧ isSkipped (m :: ops) = false ∧ assembleInstr m ops = .ok i ∧
      row = some ⟨m, ops, i⟩ := by
  unfold assembleLine at h
  split at h
  · rename_i ht
    cases h
    exact .inl ⟨by rw [ht]; rfl, rfl⟩
  · rename_i m ops ht
    split at h
    · rename_i hs
      cases h
      exact .inl ⟨by rw [ht]; exact hs, rfl⟩
    · rename_i hs
      split at h
      · rename_i i hi
        cases h
        exact .inr ⟨m, ops, i, ht, by simpa using hs, hi, rfl⟩
      · cases h

/-- A list of lines that assembles does so one line at a time (R85). -/
theorem assembleLines_cons_ok {line : Text} {rest : List Text} {rows : List AsmRow}
    (h : assembleLines (line :: rest) = .ok rows) :
    ∃ row rows', assembleLine line = .ok row ∧ assembleLines rest = .ok rows' ∧ rows = row.toList ++ rows' := by
  simp only [assembleLines] at h
  split at h
  · cases h
  · rename_i row hl
    split at h
    · cases h
    · rename_i rows' hr
      cases h
      exact ⟨row, rows', hl, hr, rfl⟩

end Sys2Proof.Machine
end

