-- ==== Sys2Proof/Laws/Decode.lean ====
section
/-! SUPPORT. The small laws of the record format: operand assembly against its bytes, the two readings of the pattern,
and the decoder one opcode at a time.
-/

namespace Sys2Proof

/-! ## Operand assembly -/

/-- Bit `i` of the operand pattern is bit `i mod 8` of operand byte `i / 8` (R62, R64). -/
theorem operandPattern_getLsbD (r : Record) (i : Nat) :
    (operandPattern r).getLsbD i =
      if i < 8 then r.b1.getLsbD i
      else if i < 16 then r.b2.getLsbD (i - 8)
      else if i < 24 then r.b3.getLsbD (i - 16)
      else r.b4.getLsbD (i - 24) := by
  simp only [operandPattern, BitVec.getLsbD_or, BitVec.getLsbD_shiftLeft, BitVec.getLsbD_setWidth]
  by_cases h8 : i < 8
  · simp [h8, show i < 32 by omega, show i < 16 by omega, show i < 24 by omega]
  · by_cases h16 : i < 16
    · simp [h8, h16, show i < 32 by omega, show i < 24 by omega, show i - 8 < 32 by omega,
        BitVec.getLsbD_of_ge r.b1 i (by omega)]
    · by_cases h24 : i < 24
      · simp [h8, h16, h24, show i < 32 by omega, show i - 16 < 32 by omega,
          BitVec.getLsbD_of_ge r.b1 i (by omega), BitVec.getLsbD_of_ge r.b2 (i - 8) (by omega)]
      · by_cases h32 : i < 32
        · simp [h8, h16, h24, h32, show i - 24 < 32 by omega, BitVec.getLsbD_of_ge r.b1 i (by omega),
            BitVec.getLsbD_of_ge r.b2 (i - 8) (by omega), BitVec.getLsbD_of_ge r.b3 (i - 16) (by omega)]
        · simp [h8, h16, h24, h32, BitVec.getLsbD_of_ge r.b1 i (by omega),
            BitVec.getLsbD_of_ge r.b4 (i - 24) (by omega)]

/-- The operand pattern as the operand bytes put together, the last one high (R62). -/
theorem operandPattern_eq_append (r : Record) : operandPattern r = r.b4 ++ (r.b3 ++ (r.b2 ++ r.b1)) := by
  apply BitVec.eq_of_getLsbD_eq
  intro i hi
  rw [operandPattern_getLsbD]
  simp only [BitVec.getLsbD_append]
  by_cases h1 : i < 8
  · rw [if_pos h1, if_pos (by omega), if_pos (by omega), if_pos (by omega)]
  · by_cases h2 : i < 16
    · rw [if_neg h1, if_pos h2, if_pos (by omega), if_pos (by omega), if_neg (by omega)]
    · by_cases h3 : i < 24
      · rw [if_neg h1, if_neg h2, if_pos h3, if_pos (by omega), if_neg (by omega)]
      · rw [if_neg h1, if_neg h2, if_neg h3, if_neg (by omega)]

/-- The operand pattern as a number: its bytes, little-endian (R64). -/
theorem operandPattern_toNat (r : Record) : (operandPattern r).toNat =
    r.b1.toNat + 256 * r.b2.toNat + 65536 * r.b3.toNat + 16777216 * r.b4.toNat := by
  rw [operandPattern_eq_append]
  simp only [BitVec.toNat_append]
  have := r.b1.isLt; have := r.b2.isLt; have := r.b3.isLt
  rw [← Nat.shiftLeft_add_eq_or_of_lt r.b1.isLt]
  rw [← Nat.shiftLeft_add_eq_or_of_lt (i := 8 + 8) (a := r.b3.toNat) (by rw [Nat.shiftLeft_eq]; omega)]
  rw [← Nat.shiftLeft_add_eq_or_of_lt (i := 8 + (8 + 8)) (a := r.b4.toNat)
    (by simp only [Nat.shiftLeft_eq]; omega)]
  simp only [Nat.shiftLeft_eq]
  omega

/-- The bytes of a pattern assemble to the pattern (R64). -/
@[simp] theorem operandPattern_recordOf (op : Byte) (u : U32) : operandPattern (recordOf op u) = u := by
  apply BitVec.eq_of_getLsbD_eq
  intro i hi
  rw [operandPattern_getLsbD]
  simp only [recordOf, patternByte, BitVec.getLsbD_setWidth, BitVec.getLsbD_ushiftRight]
  split
  · simp [*]
  · split
    · rw [show 8 * 1 + (i - 8) = i by omega]; simp [show i - 8 < 8 by omega]
    · split
      · rw [show 8 * 2 + (i - 16) = i by omega]; simp [show i - 16 < 8 by omega]
      · rw [show 8 * 3 + (i - 24) = i by omega]; simp [show i - 24 < 8 by omega]

/-- A record is its opcode byte and its operand pattern: no bit of it is elsewhere (R62). -/
@[simp] theorem recordOf_operandPattern (r : Record) : recordOf r.b0 (operandPattern r) = r := by
  have key : ∀ k (b : Byte), k < 4 → (∀ j, j < 8 → (operandPattern r).getLsbD (8 * k + j) = b.getLsbD j) →
      patternByte (operandPattern r) k = b := by
    intro k b hk h
    apply BitVec.eq_of_getLsbD_eq
    intro j hj
    simp [patternByte, hj, h j hj]
  have h1 := key 0 r.b1 (by omega) fun j hj => by
    rw [operandPattern_getLsbD, if_pos (by omega)]; simp
  have h2 := key 1 r.b2 (by omega) fun j hj => by
    rw [operandPattern_getLsbD, if_neg (by omega), if_pos (by omega)]; congr 1; omega
  have h3 := key 2 r.b3 (by omega) fun j hj => by
    rw [operandPattern_getLsbD, if_neg (by omega), if_neg (by omega), if_pos (by omega)]; congr 1; omega
  have h4 := key 3 r.b4 (by omega) fun j hj => by
    rw [operandPattern_getLsbD, if_neg (by omega), if_neg (by omega), if_neg (by omega)]; congr 1; omega
  simp [recordOf, h1, h2, h3, h4]

/-! ## The two readings of a pattern (R65) -/

theorem sext32_eq_toInt (u : U32) : sext32 u = u.toInt := by
  have := u.isLt
  simp only [sext32, BitVec.toInt]
  split <;> split <;> omega

/-- The pattern of a sign-extended pattern is the pattern (R91). -/
@[simp] theorem ofInt_sext32 (u : U32) : BitVec.ofInt 32 (sext32 u) = u := by
  rw [sext32_eq_toInt, BitVec.ofInt_toInt]

/-- A sign-extended pattern is in the `i32` range. -/
theorem inI32_sext32 (u : U32) : inI32 (sext32 u) = true := by
  have := u.isLt
  simp only [inI32, Bool.and_eq_true, decide_eq_true_eq]
  simp only [sext32]
  split <;> omega

/-- An integer of the `i32` range is read back from its pattern. -/
theorem sext32_ofInt {c : Int} (h : inI32 c = true) : sext32 (BitVec.ofInt 32 c) = c := by
  simp only [inI32, Bool.and_eq_true, decide_eq_true_eq] at h
  rw [sext32_eq_toInt, BitVec.toInt_ofInt, Int.bmod_def]
  simp only [Nat.reducePow, Nat.cast_ofNat]
  split <;> omega

/-- An unsigned integer of the `u32` range is read back from its pattern. -/
theorem zext32_ofNat {a : Nat} (h : inU32 a = true) : zext32 (BitVec.ofNat 32 a) = a := by
  simp only [inU32, decide_eq_true_eq] at h
  simp only [zext32, BitVec.toNat_ofNat]
  exact Nat.mod_eq_of_lt h

theorem inU32_zext32 (u : U32) : inU32 (zext32 u) = true := by
  simp only [inU32, decide_eq_true_eq]
  exact u.isLt

@[simp] theorem ofNat_zext32 (u : U32) : BitVec.ofNat 32 (zext32 u) = u := by
  simp [zext32]

/-! ## The decoder, one opcode at a time (R66, R68) -/

theorem decode_loadConst {r : Record} (h : r.b0 = opLoadConst) :
    decode r = .instr (.loadConst (sext32 (operandPattern r))) := by
  simp [decode, h]

theorem decode_readMem {r : Record} (h : r.b0 = opReadMem) :
    decode r = .instr (.readMem (zext32 (operandPattern r))) := by
  simp [decode, h, opLoadConst, opReadMem]

theorem decode_writeMem {r : Record} (h : r.b0 = opWriteMem) :
    decode r = .instr (.writeMem (zext32 (operandPattern r))) := by
  simp [decode, h, opLoadConst, opReadMem, opWriteMem]

theorem decode_sgn {r : Record} (h : r.b0 = opSgn) :
    decode r = .instr (.sgn (zext32 (operandPattern r))) := by
  simp [decode, h, opLoadConst, opReadMem, opWriteMem, opSgn]

theorem decode_unknown {r : Record} (h : r.b0 ∉ [opLoadConst, opReadMem, opWriteMem, opSgn]) :
    decode r = .unknown r.b0 := by
  simp only [List.mem_cons, List.not_mem_nil, or_false, not_or] at h
  unfold decode
  simp only
  rw [if_neg h.1, if_neg h.2.1, if_neg h.2.2.1, if_neg h.2.2.2]

/-- An unknown record names its own opcode byte, which is none of the four. -/
theorem decode_eq_unknown {r : Record} {op : Byte} (h : decode r = .unknown op) :
    op = r.b0 ∧ r.b0 ∉ [opLoadConst, opReadMem, opWriteMem, opSgn] := by
  by_cases hm : r.b0 ∈ [opLoadConst, opReadMem, opWriteMem, opSgn]
  · simp only [List.mem_cons, List.not_mem_nil, or_false] at hm
    rcases hm with hm | hm | hm | hm
    · rw [decode_loadConst hm] at h; cases h
    · rw [decode_readMem hm] at h; cases h
    · rw [decode_writeMem hm] at h; cases h
    · rw [decode_sgn hm] at h; cases h
  · rw [decode_unknown hm] at h
    cases h
    exact ⟨rfl, hm⟩

end Sys2Proof
end

