-- ==== Sys2Proof/Laws/Sparse.lean ====
section
/-! SUPPORT. The laws of the sparse lists behind data memory and the program store: reads after writes, and the
canonical form `sparseRising`.
-/

namespace Sys2Proof.Machine

variable {α : Type}

theorem sparseRising_weaken {hi lo lo' : Nat} {l : List (Nat × α)} (h : sparseRising hi lo l = true)
    (hle : lo' ≤ lo) : sparseRising hi lo' l = true := by
  cases l with
  | nil => rfl
  | cons e rest =>
    simp only [sparseRising, Bool.and_eq_true, decide_eq_true_eq] at h ⊢
    exact ⟨⟨by omega, h.1.2⟩, h.2⟩

/-- A key below every listed key is not listed. -/
theorem sparseGet_below {hi lo a : Nat} {l : List (Nat × α)} (h : sparseRising hi lo l = true) (ha : a < lo) :
    sparseGet l a = none := by
  induction l generalizing lo with
  | nil => rfl
  | cons e rest ih =>
    simp only [sparseRising, Bool.and_eq_true, decide_eq_true_eq] at h
    have : a ≠ e.1 := by omega
    simp only [sparseGet, if_neg this]
    exact ih h.2 (by omega)

/-- A key at or above the bound is not listed. -/
theorem sparseGet_above {hi lo a : Nat} {l : List (Nat × α)} (h : sparseRising hi lo l = true) (ha : hi ≤ a) :
    sparseGet l a = none := by
  induction l generalizing lo with
  | nil => rfl
  | cons e rest ih =>
    simp only [sparseRising, Bool.and_eq_true, decide_eq_true_eq] at h
    have : a ≠ e.1 := by omega
    simp only [sparseGet, if_neg this]
    exact ih h.2

theorem sparseGet_sparseSet (l : List (Nat × α)) (a b : Nat) (v : α) :
    sparseGet (sparseSet l a v) b = if b = a then some v else sparseGet l b := by
  induction l with
  | nil => simp [sparseSet, sparseGet]
  | cons e rest ih =>
    obtain ⟨k, w⟩ := e
    simp only [sparseSet]
    split
    · simp [sparseGet]
    · split
      · subst_vars
        simp only [sparseGet]
        split <;> rfl
      · simp only [sparseGet, ih]
        by_cases hk : b = k <;> by_cases ha : b = a <;> simp_all

theorem sparseRising_sparseSet {hi lo a : Nat} {l : List (Nat × α)} (v : α) (h : sparseRising hi lo l = true)
    (hlo : lo ≤ a) (hhi : a < hi) : sparseRising hi lo (sparseSet l a v) = true := by
  induction l generalizing lo with
  | nil => simp [sparseSet, sparseRising, hlo, hhi]
  | cons e rest ih =>
    obtain ⟨k, w⟩ := e
    simp only [sparseRising, Bool.and_eq_true, decide_eq_true_eq] at h
    simp only [sparseSet]
    split
    · simp only [sparseRising, Bool.and_eq_true, decide_eq_true_eq]
      exact ⟨⟨hlo, hhi⟩, ⟨by omega, h.1.2⟩, h.2⟩
    · split
      · subst_vars
        simp only [sparseRising, Bool.and_eq_true, decide_eq_true_eq]
        exact ⟨⟨hlo, hhi⟩, h.2⟩
      · simp only [sparseRising, Bool.and_eq_true, decide_eq_true_eq]
        exact ⟨h.1, ih h.2 (by omega)⟩

theorem sparseGet_sparseErase {hi lo : Nat} {l : List (Nat × α)} (h : sparseRising hi lo l = true) (a b : Nat) :
    sparseGet (sparseErase l a) b = if b = a then none else sparseGet l b := by
  induction l generalizing lo with
  | nil => simp [sparseErase, sparseGet]
  | cons e rest ih =>
    obtain ⟨k, w⟩ := e
    simp only [sparseRising, Bool.and_eq_true, decide_eq_true_eq] at h
    simp only [sparseErase]
    split
    · rename_i hak
      rw [hak]
      by_cases hb : b = k
      · rw [hb]
        simpa using sparseGet_below h.2 (Nat.lt_succ_self k)
      · simp [sparseGet, hb]
    · simp only [sparseGet, ih h.2]
      by_cases hk : b = k <;> by_cases ha : b = a <;> simp_all

theorem sparseRising_sparseErase {hi lo : Nat} {l : List (Nat × α)} (a : Nat) (h : sparseRising hi lo l = true) :
    sparseRising hi lo (sparseErase l a) = true := by
  induction l generalizing lo with
  | nil => rfl
  | cons e rest ih =>
    obtain ⟨k, w⟩ := e
    have h' := h
    simp only [sparseRising, Bool.and_eq_true, decide_eq_true_eq] at h
    simp only [sparseErase]
    split
    · exact sparseRising_weaken h.2 (by omega)
    · simp only [sparseRising, Bool.and_eq_true, decide_eq_true_eq]
      exact ⟨h.1, ih h.2⟩

theorem mem_sparseSet {l : List (Nat × α)} {a : Nat} {v : α} {e : Nat × α} (h : e ∈ sparseSet l a v) :
    e = (a, v) ∨ e ∈ l := by
  induction l with
  | nil => simpa [sparseSet] using h
  | cons x rest ih =>
    obtain ⟨k, w⟩ := x
    simp only [sparseSet] at h
    split at h
    · simpa using h
    · split at h
      · simp only [List.mem_cons] at h ⊢
        exact h.imp_right .inr
      · simp only [List.mem_cons] at h ⊢
        rcases h with h | h
        · exact .inr (.inl h)
        · exact (ih h).imp_right .inr

theorem mem_sparseErase {l : List (Nat × α)} {a : Nat} {e : Nat × α} (h : e ∈ sparseErase l a) : e ∈ l := by
  induction l with
  | nil => simp [sparseErase] at h
  | cons x rest ih =>
    obtain ⟨k, w⟩ := x
    simp only [sparseErase] at h
    split at h
    · exact List.mem_cons_of_mem _ h
    · simp only [List.mem_cons] at h ⊢
      exact h.imp_right ih

/-- A listed pair is what its key reads as. -/
theorem sparseGet_of_mem {hi lo : Nat} {l : List (Nat × α)} (h : sparseRising hi lo l = true) {e : Nat × α}
    (he : e ∈ l) : sparseGet l e.1 = some e.2 := by
  induction l generalizing lo with
  | nil => simp at he
  | cons x rest ih =>
    obtain ⟨k, w⟩ := x
    simp only [sparseRising, Bool.and_eq_true, decide_eq_true_eq] at h
    rcases List.mem_cons.mp he with rfl | hr
    · simp [sparseGet]
    · have hg := ih h.2 hr
      have hk : e.1 ≠ k := by
        intro hk
        rw [hk, sparseGet_below h.2 (Nat.lt_succ_self k)] at hg
        cases hg
      simp [sparseGet, hk, hg]

/-- What reads as a value is a listed pair. -/
theorem mem_of_sparseGet {l : List (Nat × α)} {a : Nat} {v : α} (h : sparseGet l a = some v) : (a, v) ∈ l := by
  induction l with
  | nil => simp [sparseGet] at h
  | cons x rest ih =>
    obtain ⟨k, w⟩ := x
    simp only [sparseGet] at h
    split at h
    · cases h
      subst_vars
      exact List.mem_cons_self
    · exact List.mem_cons_of_mem _ (ih h)

/-- Two rising lists that read the same everywhere are the same list. -/
theorem sparse_ext {hi lo hi' lo' : Nat} {l m : List (Nat × α)} (hl : sparseRising hi lo l = true)
    (hm : sparseRising hi' lo' m = true) (h : ∀ a, sparseGet l a = sparseGet m a) : l = m := by
  induction l generalizing lo lo' m with
  | nil =>
    cases m with
    | nil => rfl
    | cons y rest =>
      have := h y.1
      simp [sparseGet] at this
  | cons x rest ih =>
    obtain ⟨k, w⟩ := x
    cases m with
    | nil =>
      have := h k
      simp [sparseGet] at this
    | cons y rest' =>
      obtain ⟨k', w'⟩ := y
      simp only [sparseRising, Bool.and_eq_true, decide_eq_true_eq] at hl hm
      have hk : k = k' := by
        rcases Nat.lt_trichotomy k k' with hlt | heq | hgt
        · have := h k
          simp [sparseGet, Nat.ne_of_lt hlt, sparseGet_below hm.2 (Nat.lt_succ_of_lt hlt)] at this
        · exact heq
        · have := h k'
          simp [sparseGet, Nat.ne_of_lt hgt, sparseGet_below hl.2 (Nat.lt_succ_of_lt hgt)] at this
      subst hk
      have hw : w = w' := by simpa [sparseGet] using h k
      subst hw
      rw [ih hl.2 hm.2 ?_]
      intro a
      by_cases ha : a = k
      · subst ha
        rw [sparseGet_below hl.2 (Nat.lt_succ_self a), sparseGet_below hm.2 (Nat.lt_succ_self a)]
      · simpa [sparseGet, ha] using h a

end Sys2Proof.Machine
end

