-- ==== Sys2Proof/Laws/Memory.lean ====
section
/-! SUPPORT. Data memory and the program store: reads after writes, the canonical form kept by every operation, and
equal contents being equal data.
-/

namespace Sys2Proof.Machine

theorem Memory.wf_rising {size : Nat} {m : Memory} (h : m.wf size = true) : sparseRising size 0 m.cells = true := by
  simp only [Memory.wf, Bool.and_eq_true] at h
  exact h.1

theorem Memory.wf_nonzero {size : Nat} {m : Memory} (h : m.wf size = true) {e : Nat × I32} (he : e ∈ m.cells) :
    e.2 ≠ 0 := by
  simp only [Memory.wf, Bool.and_eq_true, List.all_eq_true, decide_eq_true_eq] at h
  exact h.2 e he

@[simp] theorem Memory.read_empty (a : Nat) : Memory.read ⟨[]⟩ a = 0 := rfl

@[simp] theorem Memory.wf_empty (size : Nat) : Memory.wf size ⟨[]⟩ = true := rfl

/-- A read after a write: the value written at the address, the old value everywhere else. -/
theorem Memory.read_write {size : Nat} {m : Memory} (h : m.wf size = true) (a b : Nat) (v : I32) :
    (m.write a v).read b = if b = a then v else m.read b := by
  unfold Memory.write Memory.read
  split
  · rename_i hv
    simp only [sparseGet_sparseErase (Memory.wf_rising h)]
    split <;> simp [hv]
  · simp only [sparseGet_sparseSet]
    split <;> simp

/-- A write in bounds keeps the canonical form. -/
theorem Memory.wf_write {size : Nat} {m : Memory} (h : m.wf size = true) {a : Nat} (ha : a < size) (v : I32) :
    (m.write a v).wf size = true := by
  unfold Memory.write
  split
  · simp only [Memory.wf, Bool.and_eq_true, List.all_eq_true, decide_eq_true_eq]
    exact ⟨sparseRising_sparseErase a (Memory.wf_rising h), fun e he => Memory.wf_nonzero h (mem_sparseErase he)⟩
  · rename_i hv
    simp only [Memory.wf, Bool.and_eq_true, List.all_eq_true, decide_eq_true_eq]
    refine ⟨sparseRising_sparseSet v (Memory.wf_rising h) (Nat.zero_le a) ha, fun e he => ?_⟩
    rcases mem_sparseSet he with rfl | hm
    · exact hv
    · exact Memory.wf_nonzero h hm

/-- A cell at or above the size reads 0. -/
theorem Memory.read_above {size : Nat} {m : Memory} (h : m.wf size = true) {a : Nat} (ha : size ≤ a) :
    m.read a = 0 := by
  simp [Memory.read, sparseGet_above (Memory.wf_rising h) ha]

/-- A pair is listed exactly when its cell reads as its value and the value is not 0. -/
theorem Memory.mem_cells_iff {size : Nat} {m : Memory} (h : m.wf size = true) (a : Nat) (v : I32) :
    (a, v) ∈ m.cells ↔ m.read a = v ∧ v ≠ 0 := by
  constructor
  · intro he
    refine ⟨?_, Memory.wf_nonzero h he⟩
    have := sparseGet_of_mem (Memory.wf_rising h) he
    simp only at this
    simp [Memory.read, this]
  · rintro ⟨hr, hv⟩
    apply mem_of_sparseGet
    unfold Memory.read at hr
    cases hg : sparseGet m.cells a with
    | none => rw [hg] at hr; exact absurd hr.symm hv
    | some w => rw [hg] at hr; simp only [Option.getD_some] at hr; rw [hr]

/-- Equal contents are equal data. -/
theorem Memory.ext_read {size size' : Nat} {m n : Memory} (hm : m.wf size = true) (hn : n.wf size' = true)
    (h : ∀ a, m.read a = n.read a) : m = n := by
  cases m with
  | mk l =>
    cases n with
    | mk k =>
      have : l = k := by
        refine sparse_ext (Memory.wf_rising hm) (Memory.wf_rising hn) fun a => ?_
        have ha := h a
        unfold Memory.read at ha
        simp only at ha
        cases hl : sparseGet l a with
        | none =>
          cases hk : sparseGet k a with
          | none => rfl
          | some w =>
            rw [hl, hk] at ha
            exact absurd ha.symm (Memory.wf_nonzero hn (mem_of_sparseGet hk))
        | some v =>
          cases hk : sparseGet k a with
          | none =>
            rw [hl, hk] at ha
            exact absurd ha (Memory.wf_nonzero hm (mem_of_sparseGet hl))
          | some w =>
            rw [hl, hk] at ha
            simpa using ha
      rw [this]

/-! ## The program store -/

@[simp] theorem ProgramStore.read_empty (i : Nat) : ProgramStore.read ⟨[]⟩ i = none := rfl

@[simp] theorem ProgramStore.wf_empty (cap : Nat) : ProgramStore.wf cap ⟨[]⟩ = true := rfl

@[simp] theorem ProgramStore.read_write (p : ProgramStore) (i j : Nat) (b : Byte) :
    (p.write i b).read j = if j = i then some b else p.read j :=
  sparseGet_sparseSet p.bytes i j b

theorem ProgramStore.wf_write {cap : Nat} {p : ProgramStore} (h : p.wf cap = true) {i : Nat} (hi : i < cap)
    (b : Byte) : (p.write i b).wf cap = true :=
  sparseRising_sparseSet b h (Nat.zero_le i) hi

theorem ProgramStore.read_above {cap : Nat} {p : ProgramStore} (h : p.wf cap = true) {i : Nat} (hi : cap ≤ i) :
    p.read i = none :=
  sparseGet_above h hi

/-- Equal contents are equal data. -/
theorem ProgramStore.ext_read {cap cap' : Nat} {p q : ProgramStore} (hp : p.wf cap = true) (hq : q.wf cap' = true)
    (h : ∀ i, p.read i = q.read i) : p = q := by
  cases p with
  | mk l =>
    cases q with
    | mk k =>
      have : l = k := sparse_ext hp hq h
      rw [this]

/-- The memory of the state after reset has the canonical form. -/
theorem State.resetWith_mem_wf (c : Config) : (State.resetWith c).mem.wf c.memSize = true := rfl

theorem State.reset_mem_wf : State.reset.mem.wf State.reset.cfg.memSize = true := rfl

end Sys2Proof.Machine
end

