-- ==== Sys2Proof/Laws/State.lean ====
section
/-! SUPPORT. One lemma per field per named update of `State`: what a read sees after an update. All hold by `rfl`.
-/

namespace Sys2Proof.Machine

section
variable (s : State) (v : Status)
@[simp] theorem State.withStatus_cfg : (s.withStatus v).cfg = s.cfg := rfl
@[simp] theorem State.withStatus_status : (s.withStatus v).status = v := rfl
@[simp] theorem State.withStatus_fault : (s.withStatus v).fault = s.fault := rfl
@[simp] theorem State.withStatus_pc : (s.withStatus v).pc = s.pc := rfl
@[simp] theorem State.withStatus_stack : (s.withStatus v).stack = s.stack := rfl
@[simp] theorem State.withStatus_mem : (s.withStatus v).mem = s.mem := rfl
@[simp] theorem State.withStatus_prog : (s.withStatus v).prog = s.prog := rfl
@[simp] theorem State.withStatus_progLen : (s.withStatus v).progLen = s.progLen := rfl
@[simp] theorem State.withStatus_stepRecLo : (s.withStatus v).stepRecLo = s.stepRecLo := rfl
@[simp] theorem State.withStatus_stepRecHi : (s.withStatus v).stepRecHi = s.stepRecHi := rfl
@[simp] theorem State.withStatus_progAddr : (s.withStatus v).progAddr = s.progAddr := rfl
@[simp] theorem State.withStatus_memAddr : (s.withStatus v).memAddr = s.memAddr := rfl
@[simp] theorem State.withStatus_stackIndex : (s.withStatus v).stackIndex = s.stackIndex := rfl
@[simp] theorem State.withStatus_draws : (s.withStatus v).draws = s.draws := rfl
end

section
variable (s : State) (v : U32)
@[simp] theorem State.withPc_cfg : (s.withPc v).cfg = s.cfg := rfl
@[simp] theorem State.withPc_status : (s.withPc v).status = s.status := rfl
@[simp] theorem State.withPc_fault : (s.withPc v).fault = s.fault := rfl
@[simp] theorem State.withPc_pc : (s.withPc v).pc = v := rfl
@[simp] theorem State.withPc_stack : (s.withPc v).stack = s.stack := rfl
@[simp] theorem State.withPc_mem : (s.withPc v).mem = s.mem := rfl
@[simp] theorem State.withPc_prog : (s.withPc v).prog = s.prog := rfl
@[simp] theorem State.withPc_progLen : (s.withPc v).progLen = s.progLen := rfl
@[simp] theorem State.withPc_stepRecLo : (s.withPc v).stepRecLo = s.stepRecLo := rfl
@[simp] theorem State.withPc_stepRecHi : (s.withPc v).stepRecHi = s.stepRecHi := rfl
@[simp] theorem State.withPc_progAddr : (s.withPc v).progAddr = s.progAddr := rfl
@[simp] theorem State.withPc_memAddr : (s.withPc v).memAddr = s.memAddr := rfl
@[simp] theorem State.withPc_stackIndex : (s.withPc v).stackIndex = s.stackIndex := rfl
@[simp] theorem State.withPc_draws : (s.withPc v).draws = s.draws := rfl
end

section
variable (s : State) (v : List I32)
@[simp] theorem State.withStack_cfg : (s.withStack v).cfg = s.cfg := rfl
@[simp] theorem State.withStack_status : (s.withStack v).status = s.status := rfl
@[simp] theorem State.withStack_fault : (s.withStack v).fault = s.fault := rfl
@[simp] theorem State.withStack_pc : (s.withStack v).pc = s.pc := rfl
@[simp] theorem State.withStack_stack : (s.withStack v).stack = v := rfl
@[simp] theorem State.withStack_mem : (s.withStack v).mem = s.mem := rfl
@[simp] theorem State.withStack_prog : (s.withStack v).prog = s.prog := rfl
@[simp] theorem State.withStack_progLen : (s.withStack v).progLen = s.progLen := rfl
@[simp] theorem State.withStack_stepRecLo : (s.withStack v).stepRecLo = s.stepRecLo := rfl
@[simp] theorem State.withStack_stepRecHi : (s.withStack v).stepRecHi = s.stepRecHi := rfl
@[simp] theorem State.withStack_progAddr : (s.withStack v).progAddr = s.progAddr := rfl
@[simp] theorem State.withStack_memAddr : (s.withStack v).memAddr = s.memAddr := rfl
@[simp] theorem State.withStack_stackIndex : (s.withStack v).stackIndex = s.stackIndex := rfl
@[simp] theorem State.withStack_draws : (s.withStack v).draws = s.draws := rfl
end

section
variable (s : State) (v : Memory)
@[simp] theorem State.withMem_cfg : (s.withMem v).cfg = s.cfg := rfl
@[simp] theorem State.withMem_status : (s.withMem v).status = s.status := rfl
@[simp] theorem State.withMem_fault : (s.withMem v).fault = s.fault := rfl
@[simp] theorem State.withMem_pc : (s.withMem v).pc = s.pc := rfl
@[simp] theorem State.withMem_stack : (s.withMem v).stack = s.stack := rfl
@[simp] theorem State.withMem_mem : (s.withMem v).mem = v := rfl
@[simp] theorem State.withMem_prog : (s.withMem v).prog = s.prog := rfl
@[simp] theorem State.withMem_progLen : (s.withMem v).progLen = s.progLen := rfl
@[simp] theorem State.withMem_stepRecLo : (s.withMem v).stepRecLo = s.stepRecLo := rfl
@[simp] theorem State.withMem_stepRecHi : (s.withMem v).stepRecHi = s.stepRecHi := rfl
@[simp] theorem State.withMem_progAddr : (s.withMem v).progAddr = s.progAddr := rfl
@[simp] theorem State.withMem_memAddr : (s.withMem v).memAddr = s.memAddr := rfl
@[simp] theorem State.withMem_stackIndex : (s.withMem v).stackIndex = s.stackIndex := rfl
@[simp] theorem State.withMem_draws : (s.withMem v).draws = s.draws := rfl
end

section
variable (s : State) (v : ProgramStore)
@[simp] theorem State.withProg_cfg : (s.withProg v).cfg = s.cfg := rfl
@[simp] theorem State.withProg_status : (s.withProg v).status = s.status := rfl
@[simp] theorem State.withProg_fault : (s.withProg v).fault = s.fault := rfl
@[simp] theorem State.withProg_pc : (s.withProg v).pc = s.pc := rfl
@[simp] theorem State.withProg_stack : (s.withProg v).stack = s.stack := rfl
@[simp] theorem State.withProg_mem : (s.withProg v).mem = s.mem := rfl
@[simp] theorem State.withProg_prog : (s.withProg v).prog = v := rfl
@[simp] theorem State.withProg_progLen : (s.withProg v).progLen = s.progLen := rfl
@[simp] theorem State.withProg_stepRecLo : (s.withProg v).stepRecLo = s.stepRecLo := rfl
@[simp] theorem State.withProg_stepRecHi : (s.withProg v).stepRecHi = s.stepRecHi := rfl
@[simp] theorem State.withProg_progAddr : (s.withProg v).progAddr = s.progAddr := rfl
@[simp] theorem State.withProg_memAddr : (s.withProg v).memAddr = s.memAddr := rfl
@[simp] theorem State.withProg_stackIndex : (s.withProg v).stackIndex = s.stackIndex := rfl
@[simp] theorem State.withProg_draws : (s.withProg v).draws = s.draws := rfl
end

section
variable (s : State) (v : U32)
@[simp] theorem State.withProgLen_cfg : (s.withProgLen v).cfg = s.cfg := rfl
@[simp] theorem State.withProgLen_status : (s.withProgLen v).status = s.status := rfl
@[simp] theorem State.withProgLen_fault : (s.withProgLen v).fault = s.fault := rfl
@[simp] theorem State.withProgLen_pc : (s.withProgLen v).pc = s.pc := rfl
@[simp] theorem State.withProgLen_stack : (s.withProgLen v).stack = s.stack := rfl
@[simp] theorem State.withProgLen_mem : (s.withProgLen v).mem = s.mem := rfl
@[simp] theorem State.withProgLen_prog : (s.withProgLen v).prog = s.prog := rfl
@[simp] theorem State.withProgLen_progLen : (s.withProgLen v).progLen = v := rfl
@[simp] theorem State.withProgLen_stepRecLo : (s.withProgLen v).stepRecLo = s.stepRecLo := rfl
@[simp] theorem State.withProgLen_stepRecHi : (s.withProgLen v).stepRecHi = s.stepRecHi := rfl
@[simp] theorem State.withProgLen_progAddr : (s.withProgLen v).progAddr = s.progAddr := rfl
@[simp] theorem State.withProgLen_memAddr : (s.withProgLen v).memAddr = s.memAddr := rfl
@[simp] theorem State.withProgLen_stackIndex : (s.withProgLen v).stackIndex = s.stackIndex := rfl
@[simp] theorem State.withProgLen_draws : (s.withProgLen v).draws = s.draws := rfl
end

section
variable (s : State) (v : U32)
@[simp] theorem State.withStepRecLo_cfg : (s.withStepRecLo v).cfg = s.cfg := rfl
@[simp] theorem State.withStepRecLo_status : (s.withStepRecLo v).status = s.status := rfl
@[simp] theorem State.withStepRecLo_fault : (s.withStepRecLo v).fault = s.fault := rfl
@[simp] theorem State.withStepRecLo_pc : (s.withStepRecLo v).pc = s.pc := rfl
@[simp] theorem State.withStepRecLo_stack : (s.withStepRecLo v).stack = s.stack := rfl
@[simp] theorem State.withStepRecLo_mem : (s.withStepRecLo v).mem = s.mem := rfl
@[simp] theorem State.withStepRecLo_prog : (s.withStepRecLo v).prog = s.prog := rfl
@[simp] theorem State.withStepRecLo_progLen : (s.withStepRecLo v).progLen = s.progLen := rfl
@[simp] theorem State.withStepRecLo_stepRecLo : (s.withStepRecLo v).stepRecLo = v := rfl
@[simp] theorem State.withStepRecLo_stepRecHi : (s.withStepRecLo v).stepRecHi = s.stepRecHi := rfl
@[simp] theorem State.withStepRecLo_progAddr : (s.withStepRecLo v).progAddr = s.progAddr := rfl
@[simp] theorem State.withStepRecLo_memAddr : (s.withStepRecLo v).memAddr = s.memAddr := rfl
@[simp] theorem State.withStepRecLo_stackIndex : (s.withStepRecLo v).stackIndex = s.stackIndex := rfl
@[simp] theorem State.withStepRecLo_draws : (s.withStepRecLo v).draws = s.draws := rfl
end

section
variable (s : State) (v : Byte)
@[simp] theorem State.withStepRecHi_cfg : (s.withStepRecHi v).cfg = s.cfg := rfl
@[simp] theorem State.withStepRecHi_status : (s.withStepRecHi v).status = s.status := rfl
@[simp] theorem State.withStepRecHi_fault : (s.withStepRecHi v).fault = s.fault := rfl
@[simp] theorem State.withStepRecHi_pc : (s.withStepRecHi v).pc = s.pc := rfl
@[simp] theorem State.withStepRecHi_stack : (s.withStepRecHi v).stack = s.stack := rfl
@[simp] theorem State.withStepRecHi_mem : (s.withStepRecHi v).mem = s.mem := rfl
@[simp] theorem State.withStepRecHi_prog : (s.withStepRecHi v).prog = s.prog := rfl
@[simp] theorem State.withStepRecHi_progLen : (s.withStepRecHi v).progLen = s.progLen := rfl
@[simp] theorem State.withStepRecHi_stepRecLo : (s.withStepRecHi v).stepRecLo = s.stepRecLo := rfl
@[simp] theorem State.withStepRecHi_stepRecHi : (s.withStepRecHi v).stepRecHi = v := rfl
@[simp] theorem State.withStepRecHi_progAddr : (s.withStepRecHi v).progAddr = s.progAddr := rfl
@[simp] theorem State.withStepRecHi_memAddr : (s.withStepRecHi v).memAddr = s.memAddr := rfl
@[simp] theorem State.withStepRecHi_stackIndex : (s.withStepRecHi v).stackIndex = s.stackIndex := rfl
@[simp] theorem State.withStepRecHi_draws : (s.withStepRecHi v).draws = s.draws := rfl
end

section
variable (s : State) (v : U32)
@[simp] theorem State.withProgAddr_cfg : (s.withProgAddr v).cfg = s.cfg := rfl
@[simp] theorem State.withProgAddr_status : (s.withProgAddr v).status = s.status := rfl
@[simp] theorem State.withProgAddr_fault : (s.withProgAddr v).fault = s.fault := rfl
@[simp] theorem State.withProgAddr_pc : (s.withProgAddr v).pc = s.pc := rfl
@[simp] theorem State.withProgAddr_stack : (s.withProgAddr v).stack = s.stack := rfl
@[simp] theorem State.withProgAddr_mem : (s.withProgAddr v).mem = s.mem := rfl
@[simp] theorem State.withProgAddr_prog : (s.withProgAddr v).prog = s.prog := rfl
@[simp] theorem State.withProgAddr_progLen : (s.withProgAddr v).progLen = s.progLen := rfl
@[simp] theorem State.withProgAddr_stepRecLo : (s.withProgAddr v).stepRecLo = s.stepRecLo := rfl
@[simp] theorem State.withProgAddr_stepRecHi : (s.withProgAddr v).stepRecHi = s.stepRecHi := rfl
@[simp] theorem State.withProgAddr_progAddr : (s.withProgAddr v).progAddr = v := rfl
@[simp] theorem State.withProgAddr_memAddr : (s.withProgAddr v).memAddr = s.memAddr := rfl
@[simp] theorem State.withProgAddr_stackIndex : (s.withProgAddr v).stackIndex = s.stackIndex := rfl
@[simp] theorem State.withProgAddr_draws : (s.withProgAddr v).draws = s.draws := rfl
end

section
variable (s : State) (v : U32)
@[simp] theorem State.withMemAddr_cfg : (s.withMemAddr v).cfg = s.cfg := rfl
@[simp] theorem State.withMemAddr_status : (s.withMemAddr v).status = s.status := rfl
@[simp] theorem State.withMemAddr_fault : (s.withMemAddr v).fault = s.fault := rfl
@[simp] theorem State.withMemAddr_pc : (s.withMemAddr v).pc = s.pc := rfl
@[simp] theorem State.withMemAddr_stack : (s.withMemAddr v).stack = s.stack := rfl
@[simp] theorem State.withMemAddr_mem : (s.withMemAddr v).mem = s.mem := rfl
@[simp] theorem State.withMemAddr_prog : (s.withMemAddr v).prog = s.prog := rfl
@[simp] theorem State.withMemAddr_progLen : (s.withMemAddr v).progLen = s.progLen := rfl
@[simp] theorem State.withMemAddr_stepRecLo : (s.withMemAddr v).stepRecLo = s.stepRecLo := rfl
@[simp] theorem State.withMemAddr_stepRecHi : (s.withMemAddr v).stepRecHi = s.stepRecHi := rfl
@[simp] theorem State.withMemAddr_progAddr : (s.withMemAddr v).progAddr = s.progAddr := rfl
@[simp] theorem State.withMemAddr_memAddr : (s.withMemAddr v).memAddr = v := rfl
@[simp] theorem State.withMemAddr_stackIndex : (s.withMemAddr v).stackIndex = s.stackIndex := rfl
@[simp] theorem State.withMemAddr_draws : (s.withMemAddr v).draws = s.draws := rfl
end

section
variable (s : State) (v : U32)
@[simp] theorem State.withStackIndex_cfg : (s.withStackIndex v).cfg = s.cfg := rfl
@[simp] theorem State.withStackIndex_status : (s.withStackIndex v).status = s.status := rfl
@[simp] theorem State.withStackIndex_fault : (s.withStackIndex v).fault = s.fault := rfl
@[simp] theorem State.withStackIndex_pc : (s.withStackIndex v).pc = s.pc := rfl
@[simp] theorem State.withStackIndex_stack : (s.withStackIndex v).stack = s.stack := rfl
@[simp] theorem State.withStackIndex_mem : (s.withStackIndex v).mem = s.mem := rfl
@[simp] theorem State.withStackIndex_prog : (s.withStackIndex v).prog = s.prog := rfl
@[simp] theorem State.withStackIndex_progLen : (s.withStackIndex v).progLen = s.progLen := rfl
@[simp] theorem State.withStackIndex_stepRecLo : (s.withStackIndex v).stepRecLo = s.stepRecLo := rfl
@[simp] theorem State.withStackIndex_stepRecHi : (s.withStackIndex v).stepRecHi = s.stepRecHi := rfl
@[simp] theorem State.withStackIndex_progAddr : (s.withStackIndex v).progAddr = s.progAddr := rfl
@[simp] theorem State.withStackIndex_memAddr : (s.withStackIndex v).memAddr = s.memAddr := rfl
@[simp] theorem State.withStackIndex_stackIndex : (s.withStackIndex v).stackIndex = v := rfl
@[simp] theorem State.withStackIndex_draws : (s.withStackIndex v).draws = s.draws := rfl
end

section
variable (s : State) (v : Nat)
@[simp] theorem State.withDraws_cfg : (s.withDraws v).cfg = s.cfg := rfl
@[simp] theorem State.withDraws_status : (s.withDraws v).status = s.status := rfl
@[simp] theorem State.withDraws_fault : (s.withDraws v).fault = s.fault := rfl
@[simp] theorem State.withDraws_pc : (s.withDraws v).pc = s.pc := rfl
@[simp] theorem State.withDraws_stack : (s.withDraws v).stack = s.stack := rfl
@[simp] theorem State.withDraws_mem : (s.withDraws v).mem = s.mem := rfl
@[simp] theorem State.withDraws_prog : (s.withDraws v).prog = s.prog := rfl
@[simp] theorem State.withDraws_progLen : (s.withDraws v).progLen = s.progLen := rfl
@[simp] theorem State.withDraws_stepRecLo : (s.withDraws v).stepRecLo = s.stepRecLo := rfl
@[simp] theorem State.withDraws_stepRecHi : (s.withDraws v).stepRecHi = s.stepRecHi := rfl
@[simp] theorem State.withDraws_progAddr : (s.withDraws v).progAddr = s.progAddr := rfl
@[simp] theorem State.withDraws_memAddr : (s.withDraws v).memAddr = s.memAddr := rfl
@[simp] theorem State.withDraws_stackIndex : (s.withDraws v).stackIndex = s.stackIndex := rfl
@[simp] theorem State.withDraws_draws : (s.withDraws v).draws = v := rfl
end

section
variable (s : State) (code : FaultCode) (opcode : Byte) (addr : U32) (op : FaultOp)
@[simp] theorem State.raiseFault_cfg : (s.raiseFault code opcode addr op).cfg = s.cfg := rfl
@[simp] theorem State.raiseFault_status : (s.raiseFault code opcode addr op).status = .fault := rfl
@[simp] theorem State.raiseFault_fault : (s.raiseFault code opcode addr op).fault = ⟨code, s.pc, opcode, addr, op⟩ := rfl
@[simp] theorem State.raiseFault_pc : (s.raiseFault code opcode addr op).pc = s.pc := rfl
@[simp] theorem State.raiseFault_stack : (s.raiseFault code opcode addr op).stack = s.stack := rfl
@[simp] theorem State.raiseFault_mem : (s.raiseFault code opcode addr op).mem = s.mem := rfl
@[simp] theorem State.raiseFault_prog : (s.raiseFault code opcode addr op).prog = s.prog := rfl
@[simp] theorem State.raiseFault_progLen : (s.raiseFault code opcode addr op).progLen = s.progLen := rfl
@[simp] theorem State.raiseFault_stepRecLo : (s.raiseFault code opcode addr op).stepRecLo = s.stepRecLo := rfl
@[simp] theorem State.raiseFault_stepRecHi : (s.raiseFault code opcode addr op).stepRecHi = s.stepRecHi := rfl
@[simp] theorem State.raiseFault_progAddr : (s.raiseFault code opcode addr op).progAddr = s.progAddr := rfl
@[simp] theorem State.raiseFault_memAddr : (s.raiseFault code opcode addr op).memAddr = s.memAddr := rfl
@[simp] theorem State.raiseFault_stackIndex : (s.raiseFault code opcode addr op).stackIndex = s.stackIndex := rfl
@[simp] theorem State.raiseFault_draws : (s.raiseFault code opcode addr op).draws = s.draws := rfl
end

section
variable (s : State) (v : I32)
@[simp] theorem State.pushValue_cfg : (s.pushValue v).cfg = s.cfg := rfl
@[simp] theorem State.pushValue_status : (s.pushValue v).status = s.status := rfl
@[simp] theorem State.pushValue_fault : (s.pushValue v).fault = s.fault := rfl
@[simp] theorem State.pushValue_pc : (s.pushValue v).pc = s.pc := rfl
@[simp] theorem State.pushValue_stack : (s.pushValue v).stack = s.stack ++ [v] := rfl
@[simp] theorem State.pushValue_mem : (s.pushValue v).mem = s.mem := rfl
@[simp] theorem State.pushValue_prog : (s.pushValue v).prog = s.prog := rfl
@[simp] theorem State.pushValue_progLen : (s.pushValue v).progLen = s.progLen := rfl
@[simp] theorem State.pushValue_stepRecLo : (s.pushValue v).stepRecLo = s.stepRecLo := rfl
@[simp] theorem State.pushValue_stepRecHi : (s.pushValue v).stepRecHi = s.stepRecHi := rfl
@[simp] theorem State.pushValue_progAddr : (s.pushValue v).progAddr = s.progAddr := rfl
@[simp] theorem State.pushValue_memAddr : (s.pushValue v).memAddr = s.memAddr := rfl
@[simp] theorem State.pushValue_stackIndex : (s.pushValue v).stackIndex = s.stackIndex := rfl
@[simp] theorem State.pushValue_draws : (s.pushValue v).draws = s.draws := rfl
end

section
variable (c : Config)
@[simp] theorem State.resetWith_cfg : (State.resetWith c).cfg = c := rfl
@[simp] theorem State.resetWith_status : (State.resetWith c).status = .idle := rfl
@[simp] theorem State.resetWith_fault : (State.resetWith c).fault = FaultRecord.empty := rfl
@[simp] theorem State.resetWith_pc : (State.resetWith c).pc = 0 := rfl
@[simp] theorem State.resetWith_stack : (State.resetWith c).stack = [] := rfl
@[simp] theorem State.resetWith_mem : (State.resetWith c).mem = ⟨[]⟩ := rfl
@[simp] theorem State.resetWith_prog : (State.resetWith c).prog = ⟨[]⟩ := rfl
@[simp] theorem State.resetWith_progLen : (State.resetWith c).progLen = 0 := rfl
@[simp] theorem State.resetWith_stepRecLo : (State.resetWith c).stepRecLo = 0 := rfl
@[simp] theorem State.resetWith_stepRecHi : (State.resetWith c).stepRecHi = 0 := rfl
@[simp] theorem State.resetWith_progAddr : (State.resetWith c).progAddr = 0 := rfl
@[simp] theorem State.resetWith_memAddr : (State.resetWith c).memAddr = 0 := rfl
@[simp] theorem State.resetWith_stackIndex : (State.resetWith c).stackIndex = 0 := rfl
@[simp] theorem State.resetWith_draws : (State.resetWith c).draws = 0 := rfl
end

section
variable (s : State)
@[simp] theorem hardReset_cfg : (hardReset s).cfg = s.cfg := rfl
@[simp] theorem hardReset_status : (hardReset s).status = .idle := rfl
@[simp] theorem hardReset_fault : (hardReset s).fault = FaultRecord.empty := rfl
@[simp] theorem hardReset_pc : (hardReset s).pc = 0 := rfl
@[simp] theorem hardReset_stack : (hardReset s).stack = [] := rfl
@[simp] theorem hardReset_mem : (hardReset s).mem = ⟨[]⟩ := rfl
@[simp] theorem hardReset_prog : (hardReset s).prog = ⟨[]⟩ := rfl
@[simp] theorem hardReset_progLen : (hardReset s).progLen = 0 := rfl
@[simp] theorem hardReset_stepRecLo : (hardReset s).stepRecLo = 0 := rfl
@[simp] theorem hardReset_stepRecHi : (hardReset s).stepRecHi = 0 := rfl
@[simp] theorem hardReset_progAddr : (hardReset s).progAddr = 0 := rfl
@[simp] theorem hardReset_memAddr : (hardReset s).memAddr = 0 := rfl
@[simp] theorem hardReset_stackIndex : (hardReset s).stackIndex = 0 := rfl
@[simp] theorem hardReset_draws : (hardReset s).draws = s.draws := rfl
end

end Sys2Proof.Machine
end

