-- ==== Sys2Proof/Laws/Ops.lean ====
section
/-! SUPPORT. What each shared operation of the meanings can do, said once.
-/

namespace Sys2Proof.Machine

theorem inBounds_iff (c : Config) (a : Nat) : inBounds c a = true ↔ a < c.memSize := by
  simp [inBounds]

theorem inBounds_eq_false_iff (c : Config) (a : Nat) : inBounds c a = false ↔ c.memSize ≤ a := by
  simp [inBounds]

/-- The stack is full exactly when the depth is finite and reached (R6, R106). -/
theorem State.stackFull_iff (s : State) :
    s.stackFull = true ↔ ∃ d, s.cfg.stackDepth = some d ∧ d ≤ s.stack.length := by
  unfold State.stackFull
  split <;> simp_all

/-- Everything a push can do: it pushes, or it raises StackOverflow on a full stack. It always answers a next state. -/
theorem pushOrOverflow_spec (opcode : Byte) (v : I32) (s : State) :
    (s.stackFull = false ∧ pushOrOverflow opcode v s = .next (s.pushValue v)) ∨
    (s.stackFull = true ∧ pushOrOverflow opcode v s = .next (s.raiseFault .stackOverflow opcode 0 .noOp)) := by
  unfold pushOrOverflow
  cases s.stackFull <;> simp

theorem pushOrOverflow_of_not_full {opcode : Byte} {v : I32} {s : State} (h : s.stackFull = false) :
    pushOrOverflow opcode v s = .next (s.pushValue v) := by
  simp [pushOrOverflow, h]

theorem pushOrOverflow_of_full {opcode : Byte} {v : I32} {s : State} (h : s.stackFull = true) :
    pushOrOverflow opcode v s = .next (s.raiseFault .stackOverflow opcode 0 .noOp) := by
  simp [pushOrOverflow, h]

/-- A pop fails exactly on the empty stack (R105). -/
theorem State.popValue_eq_none_iff (s : State) : s.popValue = none ↔ s.stack = [] := by
  unfold State.popValue
  split <;> rename_i h
  · simpa using h
  · constructor
    · intro h'; cases h'
    · intro h'; rw [h'] at h; cases h

/-- A pop that succeeds takes the top off: everything it can do. -/
theorem State.popValue_eq_some_iff (s t : State) (v : I32) :
    s.popValue = some (v, t) ↔ ∃ rest, s.stack = rest ++ [v] ∧ t = s.withStack rest := by
  unfold State.popValue
  constructor
  · intro h
    split at h
    · cases h
    · rename_i w hw
      cases h
      obtain ⟨rest, hr⟩ := List.getLast?_eq_some_iff.mp hw
      exact ⟨rest, hr, by rw [hr, List.dropLast_concat]⟩
  · rintro ⟨rest, hr, rfl⟩
    rw [hr]
    simp

theorem State.popValue_of_top {s : State} {rest : List I32} {v : I32} (h : s.stack = rest ++ [v]) :
    s.popValue = some (v, s.withStack rest) :=
  (s.popValue_eq_some_iff _ v).mpr ⟨rest, h, rfl⟩

theorem State.stackFull_eq_false {s : State} (h : ∀ d, s.cfg.stackDepth = some d → s.stack.length < d) :
    s.stackFull = false := by
  rw [Bool.eq_false_iff, Ne, State.stackFull_iff]
  rintro ⟨d, hd, hl⟩
  have := h d hd
  omega

/-- The sign as a number, exact at every value (R99). -/
theorem signOf_toInt (v : I32) :
    (signOf v).toInt = (if v.toInt > 0 then 1 else 0) - (if v.toInt < 0 then 1 else 0) := by
  unfold signOf
  by_cases h : 0 < v.toInt
  · rw [if_pos h, if_pos h, if_neg (by omega)]; rfl
  · by_cases h' : v.toInt < 0
    · rw [if_neg h, if_pos h', if_neg h, if_pos h']; rfl
    · rw [if_neg h, if_neg h', if_neg h, if_neg h']; rfl

end Sys2Proof.Machine
end

