-- ==== Sys2Proof/Laws/Exec.lean ====
section
/-! SUPPORT. The meanings one path at a time, in the order of their checks (60_exceptions.md R110), over the shared
operations.
-/

namespace Sys2Proof.Machine

theorem execReadMem_of_lt {a : Nat} {s : State} (h : a < s.cfg.memSize) :
    execReadMem a s = pushOrOverflow opReadMem (s.mem.read a) s :=
  if_pos ((inBounds_iff _ _).mpr h)

theorem execReadMem_of_le {a : Nat} {s : State} (h : s.cfg.memSize ≤ a) :
    execReadMem a s = .next (s.raiseFault .outOfBounds opReadMem (addressField a) .read) :=
  if_neg (by simp [effectiveAddress, (inBounds_eq_false_iff _ _).mpr h])

theorem execWriteMem_of_top {a : Nat} {s : State} {rest : List I32} {v : I32} (h : a < s.cfg.memSize)
    (hs : s.stack = rest ++ [v]) :
    execWriteMem a s = .next ((s.withStack rest).withMem (s.mem.write a v)) := by
  simp [execWriteMem, effectiveAddress, (inBounds_iff _ _).mpr h, State.popValue_of_top hs]

theorem execWriteMem_of_empty {a : Nat} {s : State} (h : a < s.cfg.memSize) (hs : s.stack = []) :
    execWriteMem a s = .next (s.raiseFault .stackUnderflow opWriteMem 0 .noOp) := by
  simp [execWriteMem, effectiveAddress, (inBounds_iff _ _).mpr h, (State.popValue_eq_none_iff s).mpr hs]

theorem execWriteMem_of_le {a : Nat} {s : State} (h : s.cfg.memSize ≤ a) :
    execWriteMem a s = .next (s.raiseFault .outOfBounds opWriteMem (addressField a) .write) :=
  if_neg (by simp [effectiveAddress, (inBounds_eq_false_iff _ _).mpr h])

theorem execSgn_of_checked {u : Nat} {s : State} (hc : s.cfg.sgnOperandCheck = true ∧ u ≠ 0) :
    execSgn u s = .next (s.raiseFault .illegalOperand opSgn 0 .noOp) :=
  if_pos (by simp [unusedOperandNonzero, hc.1, hc.2])

theorem execSgn_of_top {u : Nat} {s : State} {rest : List I32} {v : I32}
    (hc : ¬(s.cfg.sgnOperandCheck = true ∧ u ≠ 0)) (hs : s.stack = rest ++ [v]) :
    execSgn u s = .next ((s.withStack rest).pushValue (signOf v)) := by
  unfold execSgn
  rw [if_neg (by simpa [unusedOperandNonzero] using hc), State.popValue_of_top hs]

theorem execSgn_of_empty {u : Nat} {s : State} (hc : ¬(s.cfg.sgnOperandCheck = true ∧ u ≠ 0)) (hs : s.stack = []) :
    execSgn u s = .next (s.raiseFault .stackUnderflow opSgn 0 .noOp) := by
  unfold execSgn
  rw [if_neg (by simpa [unusedOperandNonzero] using hc), (State.popValue_eq_none_iff s).mpr hs]

/-- A stack is empty or has a top. -/
theorem stack_empty_or_top (l : List I32) : l = [] ∨ ∃ rest v, l = rest ++ [v] := by
  rcases List.eq_nil_or_concat l with h | ⟨rest, v, h⟩
  · exact .inl h
  · exact .inr ⟨rest, v, by simpa using h⟩

end Sys2Proof.Machine
end

