-- ==== Sys2Proof/Laws/PerInstr.lean ====
section
/-! SUPPORT. The family `EncodedOpcodeByte`: what the opcode table says of an instruction's first byte
(30_encoding.md R68; spec/opcode_table.json, `match` under `mask` 0xFF), one lemma per constructor.
-/

namespace Sys2Proof.Laws.EncodedOpcodeByte

/-- The byte the opcode table gives each instruction's row. -/
def rowByte : Instr → Byte
  | .loadConst _ => 0x00
  | .sgn _ => 0x01
  | .writeMem _ => 0xA2
  | .readMem _ => 0xCE

/-- The encoded record word, under the table's mask, is the row's match. -/
def Statement (i : Instr) : Prop := BitVec.setWidth 8 (encode i).word = rowByte i

theorem low_byte_of_word (r : Record) : BitVec.setWidth 8 r.word = r.b0 := by
  apply BitVec.eq_of_getLsbD_eq
  intro i hi
  have e : r.word.getLsbD i = r.b0.getLsbD i := by
    simp only [Record.word, BitVec.getLsbD_append]
    rw [if_pos (by omega), if_pos (by omega), if_pos (by omega), if_pos hi]
  rw [BitVec.getLsbD_setWidth, e]
  simp [hi]

theorem loadConst (c : Int) : Statement (.loadConst c) := low_byte_of_word _
theorem sgn (u : Nat) : Statement (.sgn u) := low_byte_of_word _
theorem writeMem (a : Nat) : Statement (.writeMem a) := low_byte_of_word _
theorem readMem (a : Nat) : Statement (.readMem a) := low_byte_of_word _

end Sys2Proof.Laws.EncodedOpcodeByte
end

