-- ==== Sys2Proof/Laws/Sequencer.lean ====
section
/-! SUPPORT. What fetch, the sequencer, START and the host port can do, said once.
-/

namespace Sys2Proof.Machine

/-- A fetch that succeeds has read the five bytes at `pc`. -/
theorem fetch_eq_some_iff (s : State) (r : Record) :
    fetch s = some r ↔
      s.prog.read s.pc.toNat = some r.b0 ∧ s.prog.read (s.pc.toNat + 1) = some r.b1 ∧
      s.prog.read (s.pc.toNat + 2) = some r.b2 ∧ s.prog.read (s.pc.toNat + 3) = some r.b3 ∧
      s.prog.read (s.pc.toNat + 4) = some r.b4 := by
  unfold fetch
  cases r
  constructor
  · intro h
    split at h
    · cases h
      simp [*]
    · cases h
  · rintro ⟨h0, h1, h2, h3, h4⟩
    simp [h0, h1, h2, h3, h4]

theorem executeRecord_of_instr {r : Record} {i : Instr} (h : decode r = .instr i) (s : State) :
    executeRecord r s = exec i s := by
  simp [executeRecord, h]

theorem executeRecord_of_unknown {r : Record} {op : Byte} (h : decode r = .unknown op) (s : State) :
    executeRecord r s = .next (s.raiseFault .unknownOpcode op 0 .noOp) := by
  simp [executeRecord, h]

/-- Everything `advance` can do. -/
theorem advance_spec (t : State) :
    (t.status = .fault ∧ advance t = t) ∨
    (t.status ≠ .fault ∧ t.pc + 5 = t.progLen ∧ advance t = (t.withPc (t.pc + 5)).withStatus .done) ∨
    (t.status ≠ .fault ∧ t.pc + 5 ≠ t.progLen ∧ advance t = t.withPc (t.pc + 5)) := by
  unfold advance
  split
  · exact .inl ⟨by assumption, rfl⟩
  · split
    · exact .inr (.inl ⟨by assumption, by assumption, rfl⟩)
    · exact .inr (.inr ⟨by assumption, by assumption, rfl⟩)

/-- Everything a step that answers a next state can have done: a run in progress, a record fetched inside the program,
executed, and the sequencer's advance. -/
theorem step_next {s t : State} (h : step s = .next t) :
    s.status = .running ∧ s.pc.toNat + 5 ≤ s.progLen.toNat ∧
    ∃ r u, fetch s = some r ∧ executeRecord r s = .next u ∧ t = advance u := by
  unfold step sequencerStep at h
  split at h <;> try cases h
  rename_i hs
  unfold runStep at h
  split at h
  · cases h
  · rename_i hp
    split at h
    · cases h
    · rename_i r hr
      split at h
      · rename_i u hu
        cases h
        exact ⟨hs, by omega, r, u, hr, hu, rfl⟩
      · cases h
      · cases h

/-- A step of a run with a record that can be fetched is that record's `Execute` and the sequencer's advance. -/
theorem step_of_executeRecord {s u : State} {r : Record} (hs : s.status = .running)
    (hp : s.pc.toNat + 5 ≤ s.progLen.toNat) (hf : fetch s = some r) (he : executeRecord r s = .next u) :
    step s = .next (advance u) := by
  simp [step, sequencerStep, hs, runStep, Nat.not_lt.mpr hp, hf, he]

/-- Everything START can do (R31). -/
theorem startRun_spec (s : State) :
    (s.progLen.toNat % 5 ≠ 0 ∧ startRun s = s.raiseFault .malformedStream 0 s.progLen .noOp) ∨
    (s.progLen = 0 ∧ startRun s = s.withStatus .done) ∨
    (s.progLen.toNat % 5 = 0 ∧ s.progLen ≠ 0 ∧ startRun s = s.withStatus .running) := by
  unfold startRun
  split
  · exact .inl ⟨by assumption, rfl⟩
  · split
    · exact .inr (.inl ⟨by assumption, rfl⟩)
    · exact .inr (.inr ⟨by omega, by assumption, rfl⟩)

/-- A write to a register that is not writable in the current state is ignored (R23). -/
theorem hostWrite_of_not_writable {r : HostReg} {s : State} (h : hostWritable r s.status = false) (v : U32) :
    hostWrite r v s = .next s := by
  simp [hostWrite, h]

theorem hostWrite_of_writable {r : HostReg} {s : State} (h : hostWritable r s.status = true) (v : U32) :
    hostWrite r v s = hostWriteReg r v s := by
  simp [hostWrite, h]

theorem hostRead_of_not_readable {r : HostReg} {s : State} (h : hostReadable r s.status = false) :
    hostRead r s = none := by
  simp [hostRead, h]

/-- One step more at the front of a run. -/
theorem run_succ_of_step {s t : State} (h : step s = .next t) (k : Nat) :
    Host.Core.run Sys2Proof.core (k + 1) s = Host.Core.run Sys2Proof.core k t := by
  have : Sys2Proof.core.step s = .next t := h
  simp only [Host.Core.run, this]

/-- A list of inputs, one input at a time. -/
theorem reactAll_cons_of_react {i : Input} {s t : State} (h : react i s = .next t) (rest : List Input) :
    reactAll (i :: rest) s = reactAll rest t := by
  simp only [reactAll, h]

/-- A list of inputs that answers a next state, followed by another list. -/
theorem reactAll_append {l : List Input} {s t : State} (h : reactAll l s = .next t) (m : List Input) :
    reactAll (l ++ m) s = reactAll m t := by
  induction l generalizing s with
  | nil => cases h; rfl
  | cons i rest ih =>
    simp only [reactAll, List.cons_append] at h ⊢
    cases hx : react i s with
    | next u => rw [hx] at h; simp only at h ⊢; exact ih h
    | fault e => rw [hx] at h; cases h
    | refused e => rw [hx] at h; cases h

end Sys2Proof.Machine
end

