-- ==== Sys2Proof/Laws/Safety.lean ====
section
/-! SUPPORT. The reachable states are closed under lists of inputs; reset leaves a clean launch state, and loading a
program keeps it (10_state.md R40).
-/

namespace Sys2Proof.Machine

theorem Reachable.reactAll {l : List Input} {s t : State} (hs : Reachable s)
    (h : Sys2Proof.Machine.reactAll l s = .next t) : Reachable t := by
  induction l generalizing s with
  | nil => cases h; exact hs
  | cons i rest ih =>
    simp only [Sys2Proof.Machine.reactAll] at h
    cases hx : react i s with
    | next u => rw [hx] at h; exact ih (.input i s u hs hx) h
    | fault e => rw [hx] at h; cases h
    | refused e => rw [hx] at h; cases h

theorem State.cleanLaunch_resetWith (c : Config) : (State.resetWith c).cleanLaunch := ⟨rfl, rfl, rfl, rfl, rfl⟩

theorem State.cleanLaunch_withProg {s : State} (h : s.cleanLaunch) (p : ProgramStore) : (s.withProg p).cleanLaunch := h

theorem State.cleanLaunch_withProgLen {s : State} (h : s.cleanLaunch) (v : U32) : (s.withProgLen v).cleanLaunch := h

end Sys2Proof.Machine
end

