-- ==== Sys2Proof/Tests/Slice0.lean ====
section
/-! SUPPORT. Tests: the spec's own vectors (95_test_vectors.md, named in each comment), the refusals of `wellFormed`, and
for every statement with hypotheses a concrete state and operands that meet them, at the boundaries of its clauses.
-/

namespace Sys2Proof.Tests

open Sys2Proof Sys2Proof.Machine

/-! ## Helpers -/

/-- A small instance: 16 cells, a stack of 2, a program store of 40 bytes, SGN operands checked. -/
def small : Config := ⟨16, some 2, 40, true⟩

/-- The state after reset in `small` with a given stack. -/
def idleWith (stack : List I32) : State := (State.resetWith small).withStack stack

/-- A run in progress in `small` whose only record is `r`. -/
def runningWith (stack : List I32) (r : Record) : State := placeRecord (idleWith stack) r

/-- The state an outcome answers, if any. -/
def nextOf (o : Host.Outcome State Fault Refusal) : Option State :=
  match o with
  | .next t => some t
  | .fault _ => none
  | .refused _ => none

/-! ## WellFormed refuses each ill-formed operand -/

theorem test_wellFormed_refuses_constant_above : wellFormed (.loadConst 2147483648) = false := by decide
theorem test_wellFormed_refuses_constant_below : wellFormed (.loadConst (-2147483649)) = false := by decide
theorem test_wellFormed_refuses_read_address : wellFormed (.readMem 4294967296) = false := by decide
theorem test_wellFormed_refuses_write_address : wellFormed (.writeMem 4294967296) = false := by decide
theorem test_wellFormed_refuses_sgn_operand : wellFormed (.sgn 4294967296) = false := by decide

/-! ## Words written out from 30_encoding.md R62, R63: operand in bits 39:8, opcode in bits 7:0 -/

/-- LOAD_CONST 256 (W1). -/
theorem test_decode_loadConst :
    decodeTableWord 40 0b0000000000000000000000010000000000000000 = some (.loadConst 256) := by decide
/-- LOAD_CONST -1 (V-D2). -/
theorem test_decode_loadConst_negative :
    decodeTableWord 40 0b1111111111111111111111111111111100000000 = some (.loadConst (-1)) := by decide
/-- READ_MEM 1017 (W2). -/
theorem test_decode_readMem :
    decodeTableWord 40 0b0000000000000000000000111111100111001110 = some (.readMem 1017) := by decide
/-- WRITE_MEM 65536 (V-D7). -/
theorem test_decode_writeMem :
    decodeTableWord 40 0b0000000000000001000000000000000010100010 = some (.writeMem 65536) := by decide
/-- SGN (V-D8). -/
theorem test_decode_sgn :
    decodeTableWord 40 0b0000000000000000000000000000000000000001 = some (.sgn 0) := by decide
/-- One bit from READ_MEM (V-D11). -/
theorem test_decode_reserved :
    decodeTableWord 40 0b0000000000000000000000000000000011001111 = none := by decide
/-- The encoder writes the records of W1 and V-D6. -/
theorem test_encode : encode (.loadConst 256) = ⟨0, 0, 1, 0, 0⟩ ∧
    encode (.readMem 4294967295) = ⟨0xCE, 0xFF, 0xFF, 0xFF, 0xFF⟩ := by decide

/-! ## One step of each instruction, from the vectors of 95_test_vectors.md -/

/-- V-L2: a negative constant on a stack that is not empty. -/
theorem test_loadConst : (nextOf (step (runningWith [1] ⟨0x00, 0xFB, 0xFF, 0xFF, 0xFF⟩))).map
    (fun t => (t.stack.map BitVec.toInt, t.pc, t.status)) = some ([1, -5], 5, .done) := by decide
/-- V-L6: StackOverflow on a full stack of 2. -/
theorem test_loadConst_overflow : (nextOf (step (runningWith [5, 6] ⟨0x00, 0x07, 0, 0, 0⟩))).map
    (fun t => (t.stack, t.fault)) = some ([5, 6], ⟨.stackOverflow, 0, 0x00, 0, .noOp⟩) := by decide
/-- V-R2, with 16 cells: the last cell in bounds. -/
theorem test_readMem : (nextOf (exec (.readMem 15) ((idleWith [1]).withMem ⟨[(15, -7)]⟩))).map
    (fun t => t.stack) = some [1, -7] := by decide
/-- V-R7: OutOfBounds is checked before StackOverflow. -/
theorem test_readMem_bounds_first : (nextOf (exec (.readMem 16) (idleWith [4, 5]))).map
    (fun t => t.fault) = some ⟨.outOfBounds, 0, 0xCE, 16, .read⟩ := by decide
/-- V-W1: the top is stored. -/
theorem test_writeMem : (nextOf (exec (.writeMem 2) (idleWith [8, 9]))).map
    (fun t => (t.stack, t.mem)) = some ([8], ⟨[(2, 9)]⟩) := by decide
/-- V-W6: a stored zero leaves no entry. -/
theorem test_writeMem_zero : (nextOf (exec (.writeMem 4) ((idleWith [0]).withMem ⟨[(4, 11)]⟩))).map
    (fun t => t.mem) = some ⟨[]⟩ := by decide
/-- V-S1: the sign of the most negative value. -/
theorem test_sgn : (nextOf (exec (.sgn 0) (idleWith [BitVec.ofInt 32 (-2147483648)]))).map
    (fun t => t.stack.map BitVec.toInt) = some [-1] := by decide
/-- V-S9: IllegalOperand is checked before StackUnderflow. -/
theorem test_sgn_operand_first : (nextOf (exec (.sgn 1) (idleWith []))).map
    (fun t => t.fault) = some ⟨.illegalOperand, 0, 0x01, 0, .noOp⟩ := by decide

/-! ## The sequencer, the host port and the assembler, from the vectors -/

/-- V-Q1: the empty program is DONE at START. -/
theorem test_start_empty : (nextOf (hostWrite .ctrl 1 State.reset)).map
    (fun t => (t.status, snapshotOf 4 t.mem)) = some (.done, []) := by decide
/-- V-Q2: six bytes are a malformed stream. -/
theorem test_start_malformed : (nextOf (hostWrite .ctrl 1 (State.reset.withProgLen 6))).map
    (fun t => (t.status, t.fault)) = some (.fault, ⟨.malformedStream, 0, 0, 6, .noOp⟩) := by decide
/-- W3 through the single-step entry, by the host's own inputs (R126). -/
theorem test_single_step : (nextOf (reactAll (stepScript [] [123] ⟨0xA2, 0, 0, 0, 0⟩) State.reset)).map
    (fun t => (t.status, t.stack, t.mem)) = some (.idle, [], ⟨[(0, 123)]⟩) := by decide
/-- The instruction the host's check places is the one the next step runs (READ_MEM 5, V-R1). -/
theorem test_withFetchWord : (nextOf (step (State.reset.withFetchWord 40 0x00000005CE))).map
    (fun t => (t.stack, t.pc)) = some ([0], 5) := by decide
/-- V-A2, V-A8, V-A11. -/
theorem test_assemble : assemble
    (mnLoadConst ++ [' ', '+', '0', '0', '7', '\n', ' ', '#', 'x', '\n'] ++ mnSgn ++ [' ', '1', '2']) =
      .ok [0x00, 0x07, 0, 0, 0, 0x01, 0, 0, 0, 0] := by decide
/-- V-A7 and V-A10. -/
theorem test_assemble_errors : assemble (mnWriteMem ++ [' ', '0', 'x', '1', '0']) = .error .malformedOperand ∧
    assemble ['s', 'g', 'n'] = .error (.unknownInstruction ['s', 'g', 'n']) := by decide
/-- V-A13. -/
theorem test_trace : traceRows (mnLoadConst ++ [' ', '2', '5', '6']) =
    .ok [⟨mnLoadConst, [['2', '5', '6']], ['0', '0', '0', '0', '0', '1', '0', '0', '0', '0']⟩] := by decide

/-! ## States the witnesses use -/

/-- One record, LOAD_CONST 5, about to run; one stack slot is left. -/
def tRun : State := runningWith [7] (encode (.loadConst 5))

/-- The same with a full stack: the step faults. -/
def tRunFull : State := runningWith [7, 8] (encode (.loadConst 5))

/-- WRITE_MEM 15 about to run. -/
def tRunStore : State := runningWith [7] (encode (.writeMem 15))

/-- The run of `tRun` after its only record. -/
def tDone : State := { tRun with status := .done, pc := 5, stack := [7, 5] }

/-- DONE with two cells written. -/
def tDoneMem : State := { tDone with mem := ⟨[(0, 3), (15, -1)]⟩ }

/-- The state after the fault of `tRunFull`. -/
def tFault : State := { tRunFull with status := .fault, fault := ⟨.stackOverflow, 0, 0x00, 0, .noOp⟩ }

theorem test_idle_inv (stack : List I32) (h : stack.length ≤ 2) : (idleWith stack).Inv where
  cfg := rfl
  mem := rfl
  prog := rfl
  depth := by intro d hd; cases hd; exact h
  progLen := Nat.zero_le _
  idle := by intro _; rfl
  running := by intro h; cases h
  done := by intro h; cases h
  fault := by intro h; cases h
  noFault := by intro _; rfl
  faultPc := by intro h; cases h
  record := rfl

theorem test_run_inv : tRun.Inv where
  cfg := by decide
  mem := rfl
  prog := by decide
  depth := by intro d hd; cases hd; decide
  progLen := by decide
  idle := by decide
  running := by decide
  done := by decide
  fault := by decide
  noFault := by decide
  faultPc := by decide
  record := rfl

theorem test_runStore_inv : tRunStore.Inv where
  cfg := by decide
  mem := rfl
  prog := by decide
  depth := by intro d hd; cases hd; decide
  progLen := by decide
  idle := by decide
  running := by decide
  done := by decide
  fault := by decide
  noFault := by decide
  faultPc := by decide
  record := rfl

theorem test_done_inv : tDoneMem.Inv where
  cfg := by decide
  mem := by decide
  prog := by decide
  depth := by intro d hd; cases hd; decide
  progLen := by decide
  idle := by decide
  running := by decide
  done := by decide
  fault := by decide
  noFault := by decide
  faultPc := by decide
  record := rfl

/-! ## Witnesses: every hypothesis of a statement met together -/

theorem test_wit_ResetStateIsConsistent : small.wf = true ∧ Config.wf ⟨4294967296, some 1, 4294967295, true⟩ = true := by
  decide

theorem test_wit_StepKeepsConsistency : tRun.Inv ∧ step tRun = .next tDone := ⟨test_run_inv, rfl⟩

theorem test_wit_EveryInputKeepsConsistency : (idleWith [7]).Inv ∧
    react (.write .stackPush 9) (idleWith [7]) = .next (idleWith [7, 9]) :=
  ⟨test_idle_inv [7] (by decide), rfl⟩

/-- The state the boot of the one-record program LOAD_CONST 5 leaves in `small`. -/
def tBoot : State :=
  { State.resetWith small with
    status := .running, progLen := 5, progAddr := 4, prog := ⟨[(0, 0), (1, 5), (2, 0), (3, 0), (4, 0)]⟩ }

theorem test_boot_is_reachable : Reachable tBoot :=
  Reachable.reactAll (l := bootScript [0x00, 0x05, 0, 0, 0]) (.reset small (by decide)) rfl

theorem test_wit_PcNeverWrapsOrPassesProgLen : Reachable tBoot ∧ tBoot.status = .running ∧
    ∃ t, step tBoot = .next t ∧ t.status ≠ .fault :=
  ⟨test_boot_is_reachable, rfl, _, rfl, by decide⟩

theorem test_wit_DecodeOfEncodeIsTheInstruction : wellFormed (.loadConst (-2147483648)) = true ∧
    wellFormed (.loadConst 2147483647) = true ∧ wellFormed (.readMem 4294967295) = true ∧
    wellFormed (.writeMem 4294967295) = true ∧ wellFormed (.sgn 4294967295) = true := by decide

theorem test_wit_EncodeOfDecodeIsTheRecord :
    decode ⟨0x00, 0xFF, 0xFF, 0xFF, 0x7F⟩ = .instr (.loadConst 2147483647) := by decide

/-- Each clause at the sign boundary of the operand: `u = 2^31`, and an opcode byte one bit from LOAD_CONST. -/
theorem test_wit_DecoderReadsOpcodeAndTypedOperand :
    let r : Byte → Record := fun op => ⟨op, 0, 0, 0, 0x80⟩
    (2147483648 : Nat) = (r 0).b1.toNat + 256 * (r 0).b2.toNat + 65536 * (r 0).b3.toNat + 16777216 * (r 0).b4.toNat ∧
    decode (r 0x00) = .instr (.loadConst (-2147483648)) ∧ decode (r 0xCE) = .instr (.readMem 2147483648) ∧
    decode (r 0xA2) = .instr (.writeMem 2147483648) ∧ decode (r 0x01) = .instr (.sgn 2147483648) ∧
    decode (r 0x80) = .unknown 0x80 := by decide

theorem test_wit_ReservedOpcodeRaisesUnknownOpcode : (0x02 : Byte) ∉ [0x00, 0x01, 0xA2, 0xCE] ∧
    (0xFF : Byte) ∉ [0x00, 0x01, 0xA2, 0xCE] := by decide

/-- The last free slot of a finite stack. -/
theorem test_wit_LoadConstPushesItsConstant : wellFormed (.loadConst (-2147483648)) = true ∧
    ∀ d, (idleWith [7]).cfg.stackDepth = some d → (idleWith [7]).stack.length < d :=
  ⟨by decide, by intro d h; cases h; decide⟩

/-- The last cell in bounds, the last free slot. -/
theorem test_wit_ReadMemPushesTheCell : wellFormed (.readMem 15) = true ∧ 15 < (idleWith [7]).cfg.memSize ∧
    ∀ d, (idleWith [7]).cfg.stackDepth = some d → (idleWith [7]).stack.length < d :=
  ⟨by decide, by decide, by intro d h; cases h; decide⟩

theorem test_wit_WriteMemStoresThePoppedTop : wellFormed (.writeMem 15) = true ∧
    (idleWith [7, 9]).mem.wf (idleWith [7, 9]).cfg.memSize = true ∧ 15 < (idleWith [7, 9]).cfg.memSize ∧
    (idleWith [7, 9]).stack = [7] ++ [9] := by decide

/-- Both ways to pass the operand check. -/
theorem test_wit_SgnReplacesTheTopByItsSign : wellFormed (.sgn 0) = true ∧ (idleWith [9]).cfg.sgnOperandCheck = true ∧
    wellFormed (.sgn 4294967295) = true ∧ (State.reset.withStack [9]).cfg.sgnOperandCheck = false ∧
    (idleWith [9]).stack = [] ++ [9] := by decide

/-- A full stack and one with a free slot; the two ends of the `i32` range. -/
theorem test_wit_LoadConstRecordExecutesItsRule :
    (∀ d, (idleWith [7, 8]).cfg.stackDepth = some d → (idleWith [7, 8]).stack.length ≤ d) ∧
    (idleWith [7, 8]).cfg.stackDepth = some (idleWith [7, 8]).stack.length ∧
    (idleWith [7]).cfg.stackDepth ≠ some (idleWith [7]).stack.length ∧
    parseInteger ['-', '2', '1', '4', '7', '4', '8', '3', '6', '4', '8'] = some (-2147483648) ∧
    parseInteger ['2', '1', '4', '7', '4', '8', '3', '6', '4', '7'] = some 2147483647 :=
  ⟨by intro d h; cases h; decide, by decide, by decide, by decide, by decide⟩

/-- The first address out of bounds, the last in bounds on a full stack and on one with a free slot. -/
theorem test_wit_ReadMemRecordExecutesItsRule :
    (∀ d, (idleWith [7, 8]).cfg.stackDepth = some d → (idleWith [7, 8]).stack.length ≤ d) ∧
    (idleWith [7, 8]).cfg.memSize = 16 ∧
    (idleWith [7, 8]).cfg.stackDepth = some (idleWith [7, 8]).stack.length ∧
    parseInteger ['4', '2', '9', '4', '9', '6', '7', '2', '9', '5'] = some ((4294967295 : Nat) : Int) :=
  ⟨by intro d h; cases h; decide, by decide, by decide, by decide⟩

/-- An empty stack and one with a top, in a canonical memory of 16 cells. -/
theorem test_wit_WriteMemRecordExecutesItsRule : (idleWith []).mem.wf (idleWith []).cfg.memSize = true ∧
    (idleWith []).stack.getLast? = none ∧ (idleWith [7]).stack.getLast? = some 7 ∧
    (idleWith [7]).cfg.memSize = 16 := by decide

/-- The operand check on and off, an empty stack and one with a top. -/
theorem test_wit_SgnRecordExecutesItsRule : (idleWith []).cfg.sgnOperandCheck = true ∧
    State.reset.cfg.sgnOperandCheck = false ∧ (idleWith []).stack.getLast? = none ∧
    (idleWith [7]).stack.getLast? = some 7 := by decide

theorem test_wit_OutOfBoundsAccessAlwaysFaults : (idleWith []).cfg.memSize ≤ (16 : U32).toNat ∧
    State.reset.cfg.memSize ≤ (1024 : U32).toNat := by decide

/-- `MEM_SIZE` at 0 and at `2^32`; the default's last address in bounds and first out of bounds. -/
theorem test_wit_BoundsComparatorEdgeCases : Config.wf ⟨0, none, 40, false⟩ = true ∧
    Config.wf ⟨4294967296, none, 40, false⟩ = true ∧ inBounds Config.default 1023 = true ∧
    inBounds Config.default 1024 = false ∧
    (nextOf (exec (.readMem 0) (State.resetWith ⟨0, none, 40, false⟩))).isSome = true := by decide

theorem test_wit_PopOnEmptyStackAlwaysUnderflows : (idleWith []).stack = [] ∧ 15 < (idleWith []).cfg.memSize ∧
    State.reset.stack = [] ∧ State.reset.cfg.sgnOperandCheck = false := by decide

/-- A full stack, the last free slot, and the depth `INF`. -/
theorem test_wit_StackOverflowExactlyOnAFullFiniteStack : (idleWith [7, 8]).fault = FaultRecord.empty ∧
    (nextOf (exec (.loadConst 1) (idleWith [7, 8]))).isSome = true ∧
    (nextOf (exec (.loadConst 1) (idleWith [7]))).isSome = true ∧
    (nextOf (exec (.loadConst 1) State.reset)).isSome = true ∧ State.reset.cfg.stackDepth = none := by decide

theorem test_wit_IllegalOperandExactlyOnACheckedSgn : (idleWith [7]).fault = FaultRecord.empty ∧
    (nextOf (exec (.sgn 1) (idleWith [7]))).isSome = true ∧ (nextOf (exec (.sgn 0) (idleWith [7]))).isSome = true ∧
    State.reset.cfg.sgnOperandCheck = Config.default.sgnOperandCheck ∧
    (nextOf (exec (.sgn 1) State.reset)).isSome = true := by decide

/-- One record of each kind, on a full stack. -/
theorem test_wit_FaultsFollowTheOrderOfChecks : (idleWith [7, 8]).fault = FaultRecord.empty ∧
    (∀ d, (idleWith [7, 8]).cfg.stackDepth = some d → (idleWith [7, 8]).stack.length ≤ d) ∧
    ∀ r ∈ [encode (.loadConst 1), encode (.readMem 16), encode (.readMem 15), encode (.writeMem 15), encode (.sgn 1),
        encode (.sgn 0), (⟨0xFF, 0, 0, 0, 0⟩ : Record)],
      (nextOf (executeRecord r (idleWith [7, 8]))).isSome = true :=
  ⟨rfl, by intro d h; cases h; decide, by decide⟩

theorem test_wit_FaultEntryIsPrecise : tRunFull.fault = FaultRecord.empty ∧ step tRunFull = .next tFault ∧
    tFault.status = .fault := ⟨rfl, rfl, rfl⟩

theorem test_wit_FaultIsStickyUntilReset : tFault.status = .fault ∧ react (.read .faultCode) tFault = .next tFault :=
  ⟨rfl, rfl⟩

/-- Two states that differ in `pc`, program and host registers only. -/
theorem test_wit_ExecuteReadsOnlyStackAndMemory :
    let s := idleWith [7]
    let s' := { tRun with memAddr := 3, pc := 10 }
    s.cfg = s'.cfg ∧ s.stack = s'.stack ∧ s.mem = s'.mem ∧ s.fault = FaultRecord.empty ∧
    s'.fault = FaultRecord.empty ∧ (nextOf (executeRecord (encode (.sgn 0)) s)).isSome = true ∧
    (nextOf (executeRecord (encode (.sgn 0)) s')).isSome = true := by decide

theorem test_wit_InstructionsReachOnlyTheTop : ([7] : List I32) ≠ [] ∧ ([5] : List I32).length = ([6] : List I32).length ∧
    (idleWith [5, 7]).stack = [5] ++ [7] ∧ (nextOf (exec (.writeMem 15) (idleWith [5, 7]))).isSome = true := by decide

/-- A record that ends its program, one that does not, one that faults, and one with a reserved opcode. -/
theorem test_wit_StepRunsTheDecodedInstruction :
    tRun.status = .running ∧ tRun.pc.toNat + 5 ≤ tRun.progLen.toNat ∧ fetch tRun = some (encode (.loadConst 5)) ∧
    decode (encode (.loadConst 5)) = .instr (.loadConst 5) ∧ tRun.pc + 5 = tRun.progLen ∧
    (nextOf (exec (.loadConst 5) tRun)).map (fun u => u.status) = some .running ∧
    fetch (tRun.withProgLen 10) = some (encode (.loadConst 5)) ∧
    (tRun.withProgLen 10).pc + 5 ≠ (tRun.withProgLen 10).progLen ∧
    (nextOf (exec (.loadConst 5) tRunFull)).map (fun u => u.status) = some .fault ∧
    fetch (runningWith [7] ⟨0x02, 0, 0, 0, 0⟩) = some ⟨0x02, 0, 0, 0, 0⟩ ∧
    decode ⟨0x02, 0, 0, 0, 0⟩ = .unknown 0x02 := by decide

theorem test_wit_RunOfRecordsTakesOneStepEach : tRun.Inv ∧ tRun.status = .running ∧
    Host.Core.run Sys2Proof.core 1 tRun = .next tDone ∧ tDone.status ≠ .fault :=
  ⟨test_run_inv, rfl, rfl, by decide⟩

theorem test_wit_EveryRunEnds : tRun.Inv ∧ tRun.status = .running ∧ tRun.programWritten := by
  refine ⟨test_run_inv, rfl, fun i hi => ?_⟩
  have h : ∀ j, j < 5 → tRun.prog.read j ≠ none := by decide
  exact h i hi

/-- The last byte of the record is missing. -/
theorem test_wit_FetchOfAnUnwrittenByteIsRefused :
    let s := { tRun with prog := ⟨[(0, 0x00), (1, 0), (2, 0), (3, 0)]⟩ }
    s.status = .running ∧ s.pc.toNat + 5 ≤ s.progLen.toNat ∧ s.prog.read (s.pc.toNat + 4) = none := by decide

theorem test_wit_NoStepOutsideARun : State.reset.status = .idle ∧ tDone.status = .done ∧ tFault.status = .fault ∧
    (nextOf (step tRun)).isSome = true := by decide

/-- A length that is no multiple of 5, the empty program, and one record. -/
theorem test_wit_StartChecksTheFramingFirst : State.reset.status = .idle ∧ (1 : U32).getLsbD 0 = true ∧
    (1 : U32).getLsbD 1 = false ∧ (State.reset.withProgLen 6).progLen.toNat % 5 ≠ 0 ∧
    State.reset.progLen.toNat = 0 ∧ (State.reset.withProgLen 5).progLen.toNat % 5 = 0 := by decide

theorem test_wit_SingleStepExecutesTheStepRecord :
    (idleWith [7]).Inv ∧ (idleWith [7]).status = .idle ∧ (2 : U32).getLsbD 0 = false ∧ (2 : U32).getLsbD 1 = true ∧
    stepRecord (idleWith [7]) = ⟨0, 0, 0, 0, 0⟩ ∧ (0 : U32).extractLsb' 24 8 = 0 :=
  ⟨test_idle_inv [7] (by decide), by decide, by decide, by decide, by decide, by decide⟩

theorem test_wit_BothCtrlBitsDoOneOfFourThings : State.reset.status = .idle ∧ (3 : U32).getLsbD 0 = true ∧
    (3 : U32).getLsbD 1 = true := by decide

theorem test_wit_CtrlIsIgnoredOutsideIdle : tDone.status ≠ .idle ∧ tRun.status ≠ .idle ∧
    react (.write .memAddr 3) tDone = .next (tDone.withMemAddr 3) ∧ react (.write .ctrl 1) tFault = .next tFault :=
  ⟨by decide, by decide, rfl, rfl⟩

theorem test_wit_RunningIgnoresTheHost : tRun.status = .running ∧ 13 ≤ HostReg.progAddr.number ∧
    13 ≤ HostReg.stackData.number := by decide

/-- CR0, CR1, CR12 and CR13: both ends of the readable range. -/
theorem test_wit_FaultStateShowsOnlyCr1ToCr12 : tFault.status = .fault ∧ hostRead .ctrl tFault = none ∧
    hostRead .status tFault = some 3 ∧ hostRead .stepRecHi tFault = some 0 ∧ hostRead .progAddr tFault = none := by
  decide

theorem test_wit_ProgramIsConstantWhileRunning : tRun.status = .running ∧ react .tick tRun = .next tDone ∧
    Input.tick ≠ .reset := ⟨rfl, rfl, by decide⟩

theorem test_wit_ParametersNeverChange : react .reset tDone = .next (State.resetWith small) := rfl

/-- PROG_MAX itself, one more, and a length that is no multiple of 5. -/
theorem test_wit_ProgLenWritesUpToProgMax : (idleWith []).status = .idle ∧
    (40 : U32).toNat ≤ (idleWith []).cfg.progMax ∧ (idleWith []).cfg.progMax < (41 : U32).toNat ∧
    (39 : U32).toNat ≤ (idleWith []).cfg.progMax ∧ (39 : U32).toNat % 5 ≠ 0 := by decide

/-- Each clause at its first out-of-range value. -/
theorem test_wit_DataPortsOutOfRange :
    (idleWith []).cfg.memSize ≤ ((idleWith []).withMemAddr 16).memAddr.toNat ∧
    (idleWith []).cfg.progMax ≤ ((idleWith []).withProgAddr 40).progAddr.toNat ∧
    (idleWith [7]).stack.length ≤ ((idleWith [7]).withStackIndex 1).stackIndex.toNat ∧
    (idleWith [7, 8]).cfg.stackDepth = some 2 ∧ (idleWith [7, 8]).stack.length = 2 := by decide

/-- Each clause at its last value in range. -/
theorem test_wit_DataPortsWriteThenRead : (idleWith [7]).Inv ∧ (idleWith [7]).status = .idle ∧
    (15 : U32).toNat < (idleWith [7]).cfg.memSize ∧ (39 : U32).toNat < (idleWith [7]).cfg.progMax ∧
    (∀ d, (idleWith [7]).cfg.stackDepth = some d → (idleWith [7]).stack.length < d) ∧
    (idleWith [7]).stack.length < 4294967296 :=
  ⟨test_idle_inv [7] (by decide), rfl, by decide, by decide, by intro d h; cases h; decide, by decide⟩

/-- The lengths 0, 39 and 40 of a store of 40 bytes. -/
theorem test_wit_BootLoadsAndStartsTheProgram : (idleWith []).cfg.wf = true ∧
    ([] : List Byte).length ≤ (idleWith []).cfg.progMax ∧
    (List.replicate 39 (0 : Byte)).length ≤ (idleWith []).cfg.progMax ∧
    (List.replicate 40 (0 : Byte)).length ≤ (idleWith []).cfg.progMax := by decide

/-- A cell that changes by each of the four ways: a run's step, a host write, the single-step entry, reset. -/
theorem test_wit_CellsChangeOnlyByWritesToThem : tRunStore.Inv ∧
    (nextOf (react .tick tRunStore)).map (fun t => t.mem.read 15) = some 7 ∧ tRunStore.mem.read 15 = 0 ∧
    (nextOf (react (.write .memData 9) (idleWith []))).map (fun t => t.mem.read 0) = some 9 ∧
    (nextOf (react (.write .ctrl 2) ((idleWith [7]).withStepRecLo 0xFA2))).map (fun t => t.mem.read 15) = some 7 ∧
    (nextOf (react .reset tDoneMem)).map (fun t => t.mem.read 15) = some 0 ∧ tDoneMem.mem.read 15 ≠ 0 :=
  ⟨test_runStore_inv, by decide, by decide, by decide, by decide, by decide, by decide⟩

/-- A WRITE_MEM to the last cell, a WRITE_MEM to the cell before it, and the READ_MEM. -/
theorem test_wit_ReadMemPushesWhatWriteMemPopped :
    let s := idleWith [8, 9]
    s.mem.wf s.cfg.memSize = true ∧ s.status ≠ .fault ∧ s.stack.getLast? = some 9 ∧
    (∀ i ∈ [Instr.writeMem 14], i ≠ .writeMem 15) ∧
    (nextOf (execAll [.writeMem 15, .writeMem 14, .readMem 15] s)).map (fun w => (w.stack, w.status)) =
      some ([9], .idle) ∧
    wellFormed (.loadConst (-2147483648)) = true ∧ 15 < (idleWith [7]).cfg.memSize ∧
    (idleWith [7]).stack.length < 2 := by decide

/-- A list whose count is 0 leaves the empty stack. -/
theorem test_wit_StackDepthFollowsTheInstructionCount : (idleWith []).status ≠ .fault ∧
    (nextOf (execAll [.loadConst 1, .writeMem 15] (idleWith []))).map (fun t => (t.status, t.stack)) =
      some (.idle, []) ∧
    ([Instr.loadConst 1, .writeMem 15].map depthEffect).sum = 0 ∧ 15 < (idleWith []).cfg.memSize := by decide

theorem test_wit_SnapshotIsTheNonzeroCellsInOrder : tDoneMem.Inv ∧ tDoneMem.status = .done ∧
    snapshot tDoneMem = some [(0, 3), (15, -1)] ∧ (15 : U32).toNat < tDoneMem.cfg.memSize :=
  ⟨test_done_inv, by decide, by decide, by decide⟩

theorem test_wit_FaultedRunHasNoResult : tFault.status = .fault := rfl

/-- A comment line between two instructions, and a last line with no line feed after it. -/
theorem test_wit_AssembledProgramDecodesToItsLines :
    assembleRows (mnSgn ++ ['\n', '#', 'x', '\n'] ++ mnReadMem ++
        [' ', '4', '2', '9', '4', '9', '6', '7', '2', '9', '5']) =
      .ok [⟨mnSgn, [], .sgn 0⟩,
        ⟨mnReadMem, [['4', '2', '9', '4', '9', '6', '7', '2', '9', '5']], .readMem 4294967295⟩] := by decide

/-- An unknown mnemonic, the first constant above the range, the first address below the range, a missing operand. -/
theorem test_wit_AssemblyErrorsLeaveNoOutput :
    lineTokens ['s', 'g', 'n'] = [['s', 'g', 'n']] ∧ isSkipped [['s', 'g', 'n']] = false ∧
    ['s', 'g', 'n'] ∉ [mnLoadConst, mnReadMem, mnWriteMem, mnSgn] ∧ ['s', 'g', 'n'] ∈ sourceLines ['s', 'g', 'n'] ∧
    integerOperand [['2', '1', '4', '7', '4', '8', '3', '6', '4', '8']] = some 2147483648 ∧
    integerOperand [['-', '1']] = some (-1) ∧ integerOperand [] = none := by decide

theorem test_wit_SkippedLinesAddNothing : isSkipped (lineTokens [' ', '#', ' ', 'x']) = true ∧
    isSkipped (lineTokens []) = true ∧ isSkipped (lineTokens ['\t', ' ']) = true := by decide

/-- IDLE and DONE; the last entry of the stack, the first index past it, the last cell in bounds. -/
theorem test_wit_RegistersReadBackWhatWasWritten : (idleWith [7, 9]).status = .idle ∧ tDone.status = .done ∧
    tDone.stack = [7] ++ 5 :: [] ∧ ([7] : List I32).length = (1 : U32).toNat ∧
    tDone.stack.length ≤ (2 : U32).toNat ∧ (15 : U32).toNat < tDone.cfg.memSize := by decide

/-- DONE, where MEM_ADDR is writable and MEM_DATA is not, and FAULT, where nothing is. -/
theorem test_wit_WritesOutsideTheirAccessAreIgnored : tDone.status ≠ .idle ∧ tFault.status ≠ .idle ∧
    tFault.status ≠ .done ∧ hostWrite .memData 9 tDone = .next tDone ∧
    hostWrite .memAddr 9 tDone = .next (tDone.withMemAddr 9) ∧ hostWrite .memAddr 9 tFault = .next tFault :=
  ⟨by decide, by decide, by decide, rfl, rfl, rfl⟩

theorem test_wit_SnapshotIsTheMemorysOwnList : tDoneMem.Inv ∧ tDoneMem.status = .done := ⟨test_done_inv, rfl⟩

end Sys2Proof.Tests
end

section
/-! SUPPORT. What `Execute` can do, said once (10_state.md R30, R34): the only parts of the state it reads are the
parameters, `S` and `M`, and it either rewrites `S` and `M` or raises one of the faults of its record.
-/

namespace Sys2Proof

/-- The decoder gives every operand in the range of its type (30_encoding.md R65, R69). -/
theorem wellFormed_of_decode {r : Record} {i : Instr} (h : decode r = .instr i) : wellFormed i = true := by
  unfold decode at h
  simp only at h
  split_ifs at h <;> cases h
  · exact inI32_sext32 _
  all_goals exact inU32_zext32 _

end Sys2Proof

namespace Sys2Proof.Machine

/-! ## The effect of an instruction -/

/-- What one `Execute` does to a state: it leaves a stack and a memory, or it raises a fault (R30). -/
inductive Effect where
  | update (stack : List I32) (mem : Memory)
  | fault (code : FaultCode) (opcode : Byte) (addr : U32) (op : FaultOp)

def Effect.apply : Effect → State → State
  | .update l m, s => (s.withStack l).withMem m
  | .fault code opcode addr op, s => s.raiseFault code opcode addr op

/-- Two states alike in all that `Execute` reads (R30, R34). -/
structure SameOperands (s s' : State) : Prop where
  cfg : s'.cfg = s.cfg
  stack : s'.stack = s.stack
  mem : s'.mem = s.mem

/-- `f` answers with the effect `e` in `s` and in every state alike in what `Execute` reads. -/
def Performs (f : State → Host.Outcome State Fault Refusal) (s : State) (e : Effect) : Prop :=
  ∀ s', SameOperands s s' → f s' = .next (e.apply s')

/-- The effects the record decoded to `d` can have in `s`: the stack stays within its capacity, memory changes only
by a WRITE_MEM in bounds that pops what it stores, and a fault is a row of R101's table other than
MalformedStream. -/
inductive EffectOf (d : Decoded) (s : State) : Effect → Prop where
  | restack (l : List I32) (hl : ∀ n, s.cfg.stackDepth = some n → s.stack.length ≤ n → l.length ≤ n) :
      EffectOf d s (.update l s.mem)
  | store (a : Nat) (rest : List I32) (v : I32) (hd : d = .instr (.writeMem a)) (ha : a < s.cfg.memSize)
      (hs : s.stack = rest ++ [v]) : EffectOf d s (.update rest (s.mem.write a v))
  | fault (code : FaultCode) (opcode : Byte) (addr : U32) (op : FaultOp) (hc : code ≠ .noFault)
      (hm : code ≠ .malformedStream)
      (hrow : ∀ pc, FaultRecord.matchesTable s.cfg s.progLen ⟨code, pc, opcode, addr, op⟩) :
      EffectOf d s (.fault code opcode addr op)

section
variable (l : List I32) (m : Memory) (code : FaultCode) (opcode : Byte) (addr : U32) (op : FaultOp) (s : State)

@[simp] theorem Effect.apply_update : (Effect.update l m).apply s = (s.withStack l).withMem m := rfl
@[simp] theorem Effect.apply_fault :
    (Effect.fault code opcode addr op).apply s = s.raiseFault code opcode addr op := rfl
end

section
variable (e : Effect) (s : State)

@[simp] theorem Effect.apply_cfg : (e.apply s).cfg = s.cfg := by cases e <;> rfl
@[simp] theorem Effect.apply_pc : (e.apply s).pc = s.pc := by cases e <;> rfl
@[simp] theorem Effect.apply_progLen : (e.apply s).progLen = s.progLen := by cases e <;> rfl
end

theorem SameOperands.refl (s : State) : SameOperands s s := ⟨rfl, rfl, rfl⟩

theorem Performs.self {f : State → Host.Outcome State Fault Refusal} {s : State} {e : Effect} (h : Performs f s e) :
    f s = .next (e.apply s) :=
  h s (.refl s)

/-- The overflow check reads the parameters and the stack only (60_exceptions.md R106). -/
theorem SameOperands.stackFull {s s' : State} (h : SameOperands s s') : s'.stackFull = s.stackFull := by
  simp only [State.stackFull, h.cfg, h.stack]

/-- A stack that is not full has room below a finite capacity (R6, R106). -/
theorem State.length_lt_of_stackFull_eq_false {s : State} (hf : s.stackFull = false) {n : Nat}
    (hn : s.cfg.stackDepth = some n) : s.stack.length < n :=
  Nat.lt_of_not_le fun hle => by simp [s.stackFull_iff.mpr ⟨n, hn, hle⟩] at hf

/-! ## The effect of each instruction -/

/-- A push has the effect of a push or of StackOverflow (R106). -/
theorem pushOrOverflow_effect {opcode : Byte} (ho : opcode = opLoadConst ∨ opcode = opReadMem) (d : Decoded) (v : I32)
    (s : State) : ∃ e, EffectOf d s e ∧ Performs (pushOrOverflow opcode v) s e := by
  cases hf : s.stackFull with
  | true =>
    obtain ⟨n, hn, -⟩ := s.stackFull_iff.mp hf
    refine ⟨.fault .stackOverflow opcode 0 .noOp, .fault _ _ _ _ nofun nofun fun _ => ⟨by simp [hn], ho, rfl, rfl⟩,
      fun s' h => ?_⟩
    exact pushOrOverflow_of_full (h.stackFull.trans hf)
  | false =>
    refine ⟨.update (s.stack ++ [v]) s.mem, .restack _ fun n hn _ => ?_, fun s' h => ?_⟩
    · rw [List.length_append]
      exact State.length_lt_of_stackFull_eq_false hf hn
    · rw [pushOrOverflow_of_not_full (h.stackFull.trans hf), ← h.stack, ← h.mem]
      rfl

/-- The address a fault record shows is the address of the instruction, out of bounds too (R101, R104). -/
theorem addressField_toNat {a : Nat} (h : inU32 a = true) : (addressField a).toNat = a :=
  zext32_ofNat h

theorem execReadMem_effect {a : Nat} (ha : inU32 a = true) (d : Decoded) (s : State) :
    ∃ e, EffectOf d s e ∧ Performs (execReadMem a) s e := by
  rcases Nat.lt_or_ge a s.cfg.memSize with hlt | hge
  · obtain ⟨e, he, hp⟩ := pushOrOverflow_effect (.inr rfl) d (s.mem.read a) s
    refine ⟨e, he, fun s' h => ?_⟩
    rw [execReadMem_of_lt (h.cfg ▸ hlt), h.mem, hp s' h]
  · refine ⟨_, .fault .outOfBounds opReadMem (addressField a) .read nofun nofun fun _ =>
      ⟨(addressField_toNat ha).symm ▸ hge, .inl ⟨rfl, rfl⟩⟩, fun s' h => ?_⟩
    exact execReadMem_of_le (h.cfg ▸ hge)

theorem execWriteMem_effect {a : Nat} (ha : inU32 a = true) (s : State) :
    ∃ e, EffectOf (.instr (.writeMem a)) s e ∧ Performs (execWriteMem a) s e := by
  rcases Nat.lt_or_ge a s.cfg.memSize with hlt | hge
  · rcases stack_empty_or_top s.stack with hs | ⟨rest, v, hs⟩
    · refine ⟨_, .fault .stackUnderflow opWriteMem 0 .noOp nofun nofun fun _ => ⟨.inl rfl, rfl, rfl⟩, fun s' h => ?_⟩
      exact execWriteMem_of_empty (h.cfg ▸ hlt) (h.stack ▸ hs)
    · refine ⟨_, .store a rest v rfl hlt hs, fun s' h => ?_⟩
      rw [execWriteMem_of_top (h.cfg ▸ hlt) (h.stack ▸ hs), h.mem]
      rfl
  · refine ⟨_, .fault .outOfBounds opWriteMem (addressField a) .write nofun nofun fun _ =>
      ⟨(addressField_toNat ha).symm ▸ hge, .inr ⟨rfl, rfl⟩⟩, fun s' h => ?_⟩
    exact execWriteMem_of_le (h.cfg ▸ hge)

theorem execSgn_effect (u : Nat) (d : Decoded) (s : State) : ∃ e, EffectOf d s e ∧ Performs (execSgn u) s e := by
  by_cases hc : s.cfg.sgnOperandCheck = true ∧ u ≠ 0
  · refine ⟨_, .fault .illegalOperand opSgn 0 .noOp nofun nofun fun _ => ⟨hc.1, rfl, rfl, rfl⟩, fun s' h => ?_⟩
    exact execSgn_of_checked (h.cfg ▸ hc)
  · rcases stack_empty_or_top s.stack with hs | ⟨rest, v, hs⟩
    · refine ⟨_, .fault .stackUnderflow opSgn 0 .noOp nofun nofun fun _ => ⟨.inr rfl, rfl, rfl⟩, fun s' h => ?_⟩
      exact execSgn_of_empty (h.cfg ▸ hc) (h.stack ▸ hs)
    · refine ⟨_, .restack (rest ++ [signOf v]) fun n _ hle => by simpa [hs] using hle, fun s' h => ?_⟩
      rw [execSgn_of_top (h.cfg ▸ hc) (h.stack ▸ hs), ← h.mem]
      rfl

/-- Every instruction the decoder can give has one effect, the same in every state alike in what it reads. -/
theorem exec_effect {i : Instr} (hi : wellFormed i = true) (s : State) :
    ∃ e, EffectOf (.instr i) s e ∧ Performs (exec i) s e := by
  cases i with
  | loadConst c => exact pushOrOverflow_effect (.inl rfl) _ _ s
  | sgn u => exact execSgn_effect u _ s
  | writeMem a => exact execWriteMem_effect hi s
  | readMem a => exact execReadMem_effect hi _ s

/-- `Execute` on any record has one effect, the same in every state alike in what it reads (R30, R34). -/
theorem executeRecord_effect (r : Record) (s : State) :
    ∃ e, EffectOf (decode r) s e ∧ Performs (executeRecord r) s e := by
  cases hd : decode r with
  | instr i =>
    obtain ⟨e, he, hp⟩ := exec_effect (wellFormed_of_decode hd) s
    exact ⟨e, he, fun s' h => (executeRecord_of_instr hd s').trans (hp s' h)⟩
  | unknown op =>
    obtain ⟨rfl, hop⟩ := decode_eq_unknown hd
    refine ⟨_, .fault .unknownOpcode r.b0 0 .noOp nofun nofun fun _ => ⟨?_, rfl, rfl⟩, fun s' _ =>
      executeRecord_of_unknown hd s'⟩
    simp only [List.mem_cons] at hop ⊢
    tauto

/-- An `Execute` that answers a next state has applied one of the effects of its record. -/
theorem executeRecord_next {r : Record} {s t : State} (h : executeRecord r s = .next t) :
    ∃ e, EffectOf (decode r) s e ∧ t = e.apply s := by
  obtain ⟨e, he, hp⟩ := executeRecord_effect r s
  rw [hp.self] at h
  cases h
  exact ⟨e, he, rfl⟩

/-- A cell `Execute` changes is the one its WRITE_MEM names (R15). -/
theorem EffectOf.writeMem_of_read_ne {d : Decoded} {s : State} {e : Effect} (he : EffectOf d s e) {size : Nat}
    (hm : s.mem.wf size = true) {a : Nat} (ha : (e.apply s).mem.read a ≠ s.mem.read a) :
    d = .instr (.writeMem a) := by
  cases he with
  | restack => exact absurd rfl ha
  | fault => exact absurd rfl ha
  | store b rest v hd =>
    by_cases hab : a = b
    · rw [hab, hd]
    · exact absurd (by simp [Memory.read_write hm, hab]) ha

end Sys2Proof.Machine
end

section
/-! SUPPORT. What a host write and an input can do, said once (10_state.md R23 to R35), and the access column of the
register map (R23, R27, R28).
-/

namespace Sys2Proof.Machine

/-! ## The access column -/

/-- No register is writable while RUNNING (R27). -/
@[simp] theorem hostWritable_running (r : HostReg) : hostWritable r .running = false := by cases r <;> rfl

/-- No register from CR13 on is readable while RUNNING (R27). -/
theorem hostReadable_running {r : HostReg} (h : 13 ≤ r.number) : hostReadable r .running = false := by
  cases r <;> revert h <;> decide

/-- In FAULT exactly CR1 to CR12 are readable (R28). -/
theorem hostReadable_fault_iff (r : HostReg) : hostReadable r .fault = true ↔ 1 ≤ r.number ∧ r.number ≤ 12 := by
  cases r <;> decide

/-- The registers CR0 to CR12 show a value wherever they are readable. -/
theorem hostReadValue_isSome {r : HostReg} (h : r.number ≤ 12) (s : State) : (hostReadValue r s).isSome = true := by
  cases r <;> simp [HostReg.number] at h <;> rfl

theorem hostRead_of_readable {r : HostReg} {s : State} (h : hostReadable r s.status = true) :
    hostRead r s = hostReadValue r s := by
  simp [hostRead, h]

/-- CTRL is writable in IDLE only (R35). -/
theorem hostWritable_ctrl_of_ne {st : Status} (h : st ≠ .idle) : hostWritable .ctrl st = false := by
  simp [hostWritable, h]

/-! ## CTRL -/

theorem ctrlWrite_start {v : U32} (h0 : v.getLsbD 0 = true) (h1 : v.getLsbD 1 = false) (s : State) :
    ctrlWrite v s = .next (startRun s) := by
  simp only [ctrlWrite, h0, h1]

theorem ctrlWrite_step {v : U32} (h0 : v.getLsbD 0 = false) (h1 : v.getLsbD 1 = true) (s : State) :
    ctrlWrite v s = singleStep s := by
  simp only [ctrlWrite, h0, h1]

/-- Everything a write of CTRL can do: at most one single step, then at most one START, and START only from IDLE
(R31, R33, R35). Only a draw is counted beside (log 3). -/
theorem ctrlWrite_next {v : U32} {s t : State} (hs : s.status = .idle) (h : ctrlWrite v s = .next t) :
    ∃ d u, (u = s.withDraws d ∨ singleStep (s.withDraws d) = .next u) ∧
      (t = u ∨ u.status = .idle ∧ t = startRun u) := by
  unfold ctrlWrite at h
  split at h
  · cases h
    exact ⟨s.draws, s, .inl rfl, .inl rfl⟩
  · cases h
    exact ⟨s.draws, s, .inl rfl, .inr ⟨hs, rfl⟩⟩
  · exact ⟨s.draws, t, .inr h, .inl rfl⟩
  · refine ⟨s.draws + 1, ?_⟩
    unfold ctrlBoth at h
    split at h
    · cases h
      exact ⟨_, .inl rfl, .inl rfl⟩
    · cases h
      exact ⟨_, .inl rfl, .inr ⟨hs, rfl⟩⟩
    · exact ⟨t, .inr h, .inl rfl⟩
    · unfold stepThenStart at h
      split at h
      · rename_i u hu
        split at h
        · rename_i hi
          cases h
          exact ⟨u, .inr hu, .inr ⟨hi, rfl⟩⟩
        · cases h
          exact ⟨_, .inr hu, .inl rfl⟩
      · cases h
      · cases h

/-! ## Any register -/

/-- Everything a host write of `v` can do to `s` (R23, R25, R29): nothing, CTRL's effect, or one field of the state, in
the states the access column allows. -/
inductive HostEffect (v : U32) (s : State) : HostReg → State → Prop where
  | ignored (r : HostReg) : HostEffect v s r s
  | ctrl (t : State) (hs : s.status = .idle) (h : ctrlWrite v s = .next t) : HostEffect v s .ctrl t
  | progLen (hs : s.status = .idle) (hv : v.toNat ≤ s.cfg.progMax) : HostEffect v s .progLen (s.withProgLen v)
  | stepRecLo (hs : s.status = .idle) : HostEffect v s .stepRecLo (s.withStepRecLo v)
  | stepRecHi (hs : s.status = .idle) : HostEffect v s .stepRecHi (s.withStepRecHi (BitVec.setWidth 8 v))
  | progAddr (hs : s.status = .idle) : HostEffect v s .progAddr (s.withProgAddr v)
  | progData (hs : s.status = .idle) (ha : s.progAddr.toNat < s.cfg.progMax) :
      HostEffect v s .progData (s.withProg (s.prog.write s.progAddr.toNat (BitVec.setWidth 8 v)))
  | memAddr (hs : s.status = .idle ∨ s.status = .done) : HostEffect v s .memAddr (s.withMemAddr v)
  | memData (hs : s.status = .idle) (ha : s.memAddr.toNat < s.cfg.memSize) :
      HostEffect v s .memData (s.withMem (s.mem.write s.memAddr.toNat v))
  | stackPush (hs : s.status = .idle) (hf : s.stackFull = false) : HostEffect v s .stackPush (s.pushValue v)
  | stackIndex (hs : s.status = .idle ∨ s.status = .done) : HostEffect v s .stackIndex (s.withStackIndex v)

/-- A write that reaches its register has one of the effects of `HostEffect`. -/
theorem hostWriteReg_next {r : HostReg} {v : U32} {s t : State} (hw : hostWritable r s.status = true)
    (h : hostWriteReg r v s = .next t) : HostEffect v s r t := by
  cases r <;> simp only [hostWritable, decide_eq_true_eq, Bool.or_eq_true, Bool.false_eq_true] at hw
  case ctrl => exact .ctrl t hw h
  all_goals
    simp only [hostWriteReg, Host.Outcome.next.injEq] at h
    subst h
  case stepRecLo => exact .stepRecLo hw
  case stepRecHi => exact .stepRecHi hw
  case progAddr => exact .progAddr hw
  case memAddr => exact .memAddr hw
  case stackIndex => exact .stackIndex hw
  all_goals split
  case progLen.isTrue hv => exact .progLen hw hv
  case progData.isTrue ha => exact .progData hw ha
  case memData.isTrue ha => exact .memData hw ((inBounds_iff _ _).mp ha)
  case stackPush.isFalse hf => exact .stackPush hw (by simpa using hf)
  all_goals exact .ignored _

/-- A host write has one of the effects of `HostEffect`. -/
theorem hostWrite_next {r : HostReg} {v : U32} {s t : State} (h : hostWrite r v s = .next t) : HostEffect v s r t := by
  cases hw : hostWritable r s.status with
  | true => exact hostWriteReg_next hw ((hostWrite_of_writable hw v).symm.trans h)
  | false =>
    rw [hostWrite_of_not_writable hw] at h
    cases h
    exact .ignored r

/-- A host read changes nothing. -/
theorem react_read_next {r : HostReg} {s t : State} (h : react (.read r) s = .next t) : t = s := by
  simp only [react] at h
  split at h <;> cases h
  rfl

/-! ## What CTRL, START and the sequencer leave unchanged -/

@[simp] theorem startRun_cfg (s : State) : (startRun s).cfg = s.cfg := by
  unfold startRun
  split_ifs <;> rfl

@[simp] theorem startRun_mem (s : State) : (startRun s).mem = s.mem := by
  unfold startRun
  split_ifs <;> rfl

@[simp] theorem advance_cfg (s : State) : (advance s).cfg = s.cfg := by
  unfold advance
  split_ifs <;> rfl

@[simp] theorem advance_mem (s : State) : (advance s).mem = s.mem := by
  unfold advance
  split_ifs <;> rfl

/-- A single step applies one effect of the record of STEP_REC (R33). -/
theorem singleStep_next {s t : State} (h : singleStep s = .next t) :
    ∃ e, EffectOf (decode (stepRecord s)) s e ∧ t = e.apply s :=
  executeRecord_next h

/-- A step of a run is one effect of the fetched record, then the sequencer's advance (R32). -/
theorem step_next_effect {s t : State} (h : step s = .next t) :
    s.status = .running ∧ s.pc.toNat + 5 ≤ s.progLen.toNat ∧
    ∃ r e, fetch s = some r ∧ EffectOf (decode r) s e ∧ t = advance (e.apply s) := by
  obtain ⟨hs, hp, r, u, hf, hu, rfl⟩ := step_next h
  obtain ⟨e, he, rfl⟩ := executeRecord_next hu
  exact ⟨hs, hp, r, e, hf, he, rfl⟩

/-- The stop `fetchPastEnd` needs a record that extends past PROG_LEN (log 5). -/
theorem step_ne_fetchPastEnd {s : State} (h : s.status = .running → s.pc.toNat + 5 ≤ s.progLen.toNat) :
    step s ≠ .fault .fetchPastEnd := by
  cases hs : s.status with
  | idle | done | fault => simp [step, sequencerStep, hs]
  | running =>
    cases hf : fetch s with
    | none => simp [step, sequencerStep, hs, runStep, Nat.not_lt.mpr (h hs), hf]
    | some r =>
      obtain ⟨e, -, he⟩ := executeRecord_effect r s
      rw [step_of_executeRecord hs (h hs) hf he.self]
      nofun

end Sys2Proof.Machine
end

section
/-! SUPPORT. The invariant, one operation at a time, and along every run: it holds after reset and every input keeps
it, so it holds in every reachable state.
-/

namespace Sys2Proof.Machine

/-- In a state with the invariant `pc` is a record offset within the program, whatever the status (R18, R19). -/
theorem State.Inv.pc_within {s : State} (h : s.Inv) : s.pc.toNat % 5 = 0 ∧ s.pc.toNat ≤ s.progLen.toNat := by
  cases hs : s.status with
  | idle => simp [h.idle hs]
  | running =>
    obtain ⟨hpc, -, hle⟩ := h.running hs
    exact ⟨hpc, by omega⟩
  | done =>
    obtain ⟨hlen, hpc⟩ := h.done hs
    rw [hpc]
    exact ⟨hlen, Nat.le_refl _⟩
  | fault => exact h.faultPc hs

/-! ## The operations -/

theorem inv_resetWith {c : Config} (h : c.wf = true) : (State.resetWith c).Inv where
  cfg := h
  mem := rfl
  prog := rfl
  depth := fun _ _ => Nat.zero_le _
  progLen := Nat.zero_le _
  idle := fun _ => rfl
  running := nofun
  done := nofun
  fault := nofun
  noFault := fun _ => rfl
  faultPc := nofun
  record := rfl

theorem inv_withDraws {s : State} (h : s.Inv) (n : Nat) : (s.withDraws n).Inv := { h with }

theorem inv_hardReset {s : State} (h : s.Inv) : (hardReset s).Inv :=
  inv_withDraws (inv_resetWith h.cfg) s.draws

/-- A fault of a row of R101's table, keeps the invariant. -/
theorem inv_raiseFault {s : State} (h : s.Inv) {code : FaultCode} {opcode : Byte} {addr : U32} {op : FaultOp}
    (hc : code ≠ .noFault) (hrow : FaultRecord.matchesTable s.cfg s.progLen ⟨code, s.pc, opcode, addr, op⟩) :
    (s.raiseFault code opcode addr op).Inv :=
  { h with
    idle := nofun
    running := nofun
    done := nofun
    fault := fun _ => ⟨hc, rfl⟩
    noFault := fun hn => absurd rfl hn
    faultPc := fun _ => h.pc_within
    record := hrow }

/-- Every effect of a record keeps the invariant. -/
theorem inv_effect {s : State} (h : s.Inv) {d : Decoded} {e : Effect} (he : EffectOf d s e) :
    (e.apply s).Inv := by
  cases he with
  | restack l hl => exact { h with depth := fun n hn => hl n hn (h.depth n hn) }
  | store a rest v _ ha hs =>
    refine { h with mem := Memory.wf_write h.mem ha v, depth := fun n hn => ?_ }
    have := h.depth n hn
    rw [hs, List.length_append] at this
    exact Nat.le_of_add_right_le this
  | fault code opcode addr op hc _ hrow => exact inv_raiseFault h hc (hrow s.pc)

/-- While a record lies ahead in the program, `pc + 5` does not wrap (R19). -/
theorem pc_add_five_toNat {s : State} (h : s.pc.toNat + 5 ≤ s.progLen.toNat) : (s.pc + 5).toNat = s.pc.toNat + 5 := by
  have := s.progLen.isLt
  rw [BitVec.toNat_add]
  exact Nat.mod_eq_of_lt (by simp; omega)

/-- The sequencer's advance keeps the invariant: a run not at its end has another whole record ahead (R19, R32). -/
theorem inv_advance {s : State} (h : s.Inv) (hs : s.status = .running ∨ s.status = .fault) :
    (advance s).Inv := by
  rcases advance_spec s with ⟨-, ha⟩ | ⟨hf, hend, ha⟩ | ⟨hf, hend, ha⟩ <;> rw [ha]
  case inl => exact h
  all_goals
    have hr : s.status = .running := hs.resolve_right hf
    obtain ⟨hpc, hlen, hle⟩ := h.running hr
    have hadd := pc_add_five_toNat hle
  case inr.inl =>
    exact { h with
      idle := nofun
      running := nofun
      done := fun _ => ⟨hlen, hend⟩
      fault := nofun
      noFault := fun _ => h.noFault hf
      faultPc := nofun }
  case inr.inr =>
    have hne : (s.pc + 5).toNat ≠ s.progLen.toNat := fun he => hend (BitVec.eq_of_toNat_eq he)
    exact { h with
      idle := fun hi => absurd (hr.symm.trans hi) nofun
      running := fun _ => ⟨by simp only [State.withPc_pc]; omega, hlen, by
        simp only [State.withPc_pc, State.withPc_progLen]; omega⟩
      done := fun hd => absurd (hr.symm.trans hd) nofun
      fault := fun hx => absurd hx hf
      faultPc := fun hx => absurd hx hf }

/-- START from IDLE keeps the invariant (R31). -/
theorem inv_startRun {s : State} (h : s.Inv) (hs : s.status = .idle) : (startRun s).Inv := by
  have hpc := h.idle hs
  have hempty := h.noFault (by simp [hs])
  rcases startRun_spec s with ⟨hlen, he⟩ | ⟨hlen, he⟩ | ⟨hlen, hne, he⟩ <;> rw [he]
  · exact inv_raiseFault h nofun ⟨hlen, hpc, rfl, rfl, rfl⟩
  · exact { h with
      idle := nofun
      running := nofun
      done := fun _ => ⟨by simp [hlen], hpc.trans hlen.symm⟩
      fault := nofun
      noFault := fun _ => hempty
      faultPc := nofun }
  · have hpos : s.progLen.toNat ≠ 0 := fun h0 => hne (BitVec.eq_of_toNat_eq h0)
    exact { h with
      idle := nofun
      running := fun _ => ⟨by simp [hpc], hlen, by simp [hpc]; omega⟩
      done := nofun
      fault := nofun
      noFault := fun _ => hempty
      faultPc := nofun }

/-! ## The inputs -/

/-- A write of CTRL keeps the invariant. -/
theorem inv_ctrlWrite {s t : State} {v : U32} (h : s.Inv) (hs : s.status = .idle)
    (hw : ctrlWrite v s = .next t) : t.Inv := by
  obtain ⟨d, u, hu, ht⟩ := ctrlWrite_next hs hw
  have hui : u.Inv := by
    rcases hu with rfl | hu
    · exact inv_withDraws h d
    · obtain ⟨e, he, rfl⟩ := singleStep_next hu
      exact inv_effect (inv_withDraws h d) he
  rcases ht with rfl | ⟨hidle, rfl⟩
  · exact hui
  · exact inv_startRun hui hidle

/-- Every host write keeps the invariant. -/
theorem inv_hostEffect {s t : State} {r : HostReg} {v : U32} (h : s.Inv) (ht : HostEffect v s r t) : t.Inv := by
  cases ht with
  | ignored => exact h
  | ctrl t hs hw => exact inv_ctrlWrite h hs hw
  | progLen hs hv =>
    have hempty := h.noFault (by simp [hs])
    exact { h with
      progLen := hv
      running := fun hr => absurd (hs.symm.trans hr) nofun
      done := fun hd => absurd (hs.symm.trans hd) nofun
      faultPc := fun hf => absurd (hs.symm.trans hf) nofun
      record := by simp [hempty, FaultRecord.matchesTable, FaultRecord.empty] }
  | progData hs ha => exact { h with prog := ProgramStore.wf_write h.prog ha _ }
  | memData hs ha => exact { h with mem := Memory.wf_write h.mem ha v }
  | stackPush hs hf =>
    refine { h with depth := fun n hn => ?_ }
    rw [State.pushValue_stack, List.length_append]
    exact State.length_lt_of_stackFull_eq_false hf hn
  | stepRecLo | stepRecHi | progAddr | memAddr | stackIndex => exact { h with }

/-- Every step of a run keeps the invariant. -/
theorem inv_step {s t : State} (h : s.Inv) (ht : step s = .next t) : t.Inv := by
  obtain ⟨hs, -, r, e, -, he, rfl⟩ := step_next_effect ht
  exact inv_advance (inv_effect h he) (by cases e with
    | update => exact .inl hs
    | fault => exact .inr rfl)

/-- Every input keeps the invariant. -/
theorem inv_react {i : Input} {s t : State} (h : s.Inv) (ht : react i s = .next t) : t.Inv := by
  cases i with
  | tick => exact inv_step h ht
  | write r v => exact inv_hostEffect h (hostWrite_next ht)
  | read r => exact react_read_next ht ▸ h
  | reset =>
    cases ht
    exact inv_hardReset h

/-- The invariant holds in every reachable state. -/
theorem Reachable.inv {s : State} (h : Reachable s) : s.Inv := by
  induction h with
  | reset c hc => exact inv_resetWith hc
  | input i s t _ ht ih => exact inv_react ih ht

end Sys2Proof.Machine
end

section
/-! PROOFS. The statements of 10_state.md: the run and `pc`, START and STEP, the host's access, the parameters, the
cells and the result.
-/

namespace Sys2Proof.Machine

/-! ## The run and START -/

/-- A step that raises no fault moves `pc` on by 5 without wrapping, and the run is DONE exactly at its end (R19,
R32). -/
theorem step_pc_of_not_fault {s t : State} (h : step s = .next t) (ht : t.status ≠ .fault) :
    t.pc.toNat = s.pc.toNat + 5 ∧ (t.status = .done ↔ t.pc = t.progLen) := by
  obtain ⟨hs, hle, r, e, -, -, rfl⟩ := step_next_effect h
  have hadd : (s.pc + 5).toNat = s.pc.toNat + 5 := pc_add_five_toNat hle
  cases e with
  | fault => exact absurd rfl ht
  | update l m =>
    rcases advance_spec ((Effect.update l m).apply s) with ⟨hf, ha⟩ | ⟨-, hend, ha⟩ | ⟨-, hend, ha⟩ <;> rw [ha] at ht ⊢
    · exact absurd hf ht
    · exact ⟨hadd, fun _ => hend, fun _ => rfl⟩
    · exact ⟨hadd, fun hd => absurd (hs.symm.trans hd) nofun, fun hp => absurd hp hend⟩

/-- Settles O5: `pc` is a record offset of the program by the invariant of reachable states. -/
theorem pcNeverWrapsOrPassesProgLen : Obligations.PcNeverWrapsOrPassesProgLen := by
  intro s hs
  have hrun : s.status = .running → s.progLen.toNat % 5 = 0 ∧ s.pc.toNat + 5 ≤ s.progLen.toNat := fun hr =>
    (hs.inv.running hr).2
  obtain ⟨hpc, hle⟩ := hs.inv.pc_within
  exact ⟨hpc, hle, hrun, step_ne_fetchPastEnd fun hr => (hrun hr).2, fun t => step_pc_of_not_fault⟩

/-- A write of START alone in IDLE is `startRun` (R31). -/
theorem hostWrite_start {s : State} {v : U32} (hs : s.status = .idle) (h0 : v.getLsbD 0 = true)
    (h1 : v.getLsbD 1 = false) : hostWrite .ctrl v s = .next (startRun s) := by
  rw [hostWrite_of_writable (by simp [hostWritable, hs]), hostWriteReg, ctrlWrite_start h0 h1]

/-- Settles O35, by the three ways START can go. -/
theorem startChecksTheFramingFirst : Obligations.StartChecksTheFramingFirst := by
  intro s v hs h0 h1
  rw [hostWrite_start hs h0 h1]
  rcases startRun_spec s with ⟨hlen, he⟩ | ⟨hlen, he⟩ | ⟨hlen, hne, he⟩ <;> rw [he]
  · rw [if_pos hlen]
    rfl
  · rw [if_neg (by simp [hlen]), if_pos (by simp [hlen])]
    rfl
  · have hpos : s.progLen.toNat ≠ 0 := fun h0 => hne (BitVec.eq_of_toNat_eq h0)
    rw [if_neg (by simp [hlen]), if_neg hpos]
    rfl

/-! ## STEP -/

/-- Byte `k` of a pattern is its bits `8k+7:8k` (R33, R64). -/
theorem patternByte_eq_extractLsb' (u : U32) (k : Nat) : patternByte u k = u.extractLsb' (8 * k) 8 := by
  apply BitVec.eq_of_getLsbD_eq
  intro i hi
  simp [patternByte, hi]

/-- The record STEP executes, by its bytes (R33). -/
theorem eq_stepRecord {s : State} {r : Record} (h0 : r.b0 = s.stepRecLo.extractLsb' 0 8)
    (h1 : r.b1 = s.stepRecLo.extractLsb' 8 8) (h2 : r.b2 = s.stepRecLo.extractLsb' 16 8)
    (h3 : r.b3 = s.stepRecLo.extractLsb' 24 8) (h4 : r.b4 = s.stepRecHi) : r = stepRecord s := by
  cases r
  simp_all [stepRecord, patternByte_eq_extractLsb']

theorem hostWrite_step {s : State} {v : U32} (hs : s.status = .idle) (h0 : v.getLsbD 0 = false)
    (h1 : v.getLsbD 1 = true) : hostWrite .ctrl v s = singleStep s := by
  rw [hostWrite_of_writable (by simp [hostWritable, hs]), hostWriteReg, ctrlWrite_step h0 h1]

/-- An effect in IDLE, where the record of faults is empty: IDLE or a fault with the `pc` of IDLE, and the same effect
whatever `pc` and PROG_LEN hold (R33, R34). -/
theorem EffectOf.apply_idle {s : State} {d : Decoded} {e : Effect} (he : EffectOf d s e) (hs : s.status = .idle)
    (hf : s.fault = FaultRecord.empty) :
    ((e.apply s).status = .idle ∨ (e.apply s).status = .fault ∧ (e.apply s).fault.pc = s.pc) ∧
    (e.apply s).fault.code ≠ .malformedStream ∧
    ∀ p n, e.apply { s with pc := p, progLen := n } =
      { e.apply s with
        pc := p, progLen := n
        fault := if (e.apply s).status = .fault then { (e.apply s).fault with pc := p } else (e.apply s).fault } := by
  cases he with
  | restack | store =>
    refine ⟨.inl hs, by simp [hf, FaultRecord.empty], fun p n => ?_⟩
    rw [if_neg (by simp [hs])]
    rfl
  | fault code opcode addr op _ hm =>
    exact ⟨.inr ⟨rfl, rfl⟩, hm, fun _ _ => rfl⟩

/-- Settles O36: STEP applies the effect of the record of STEP_REC, which reads neither `pc` nor PROG_LEN. -/
theorem singleStepExecutesTheStepRecord : Obligations.SingleStepExecutesTheStepRecord := by
  rintro s v r hi hs h0 h1 ⟨hb0, hb1, hb2, hb3, hb4⟩
  obtain ⟨e, he, hp⟩ := executeRecord_effect r s
  obtain ⟨hstatus, hcode, hframe⟩ := he.apply_idle hs (hi.noFault (by simp [hs]))
  refine ⟨?_, e.apply s, hp.self, e.apply_pc s, e.apply_progLen s, hi.idle hs ▸ hstatus, hcode, fun p n => ?_⟩
  · rw [hostWrite_step hs h0 h1, eq_stepRecord hb0 hb1 hb2 hb3 hb4, singleStep]
  · rw [hp { s with pc := p, progLen := n } ⟨rfl, rfl, rfl⟩, hframe]

/-! ## What the host may do, by status -/

/-- Settles O38: CTRL is not writable outside IDLE, a step needs RUNNING, and no other register a host may write in
DONE or FAULT holds the status, `pc`, the stack or memory. -/
theorem ctrlIsIgnoredOutsideIdle : Obligations.CtrlIsIgnoredOutsideIdle := by
  refine ⟨fun s v hs => hostWrite_of_not_writable (hostWritable_ctrl_of_ne hs) v, fun s t i hs ht hi => ?_⟩
  have hidle : s.status ≠ .idle := by rcases hs with hs | hs <;> simp [hs]
  cases i with
  | tick =>
    obtain ⟨hr, -⟩ := step_next ht
    rcases hs with hs | hs <;> exact absurd (hr.symm.trans hs) nofun
  | write r v =>
    cases hostWrite_next ht with
    | ignored | memAddr | stackIndex => exact ⟨rfl, rfl, rfl, rfl⟩
    | ctrl _ hw | progLen hw | stepRecLo hw | stepRecHi hw | progAddr hw | progData hw | memData hw | stackPush hw =>
      exact absurd hw hidle
  | read r =>
    cases react_read_next ht
    exact ⟨rfl, rfl, rfl, rfl⟩
  | reset => exact absurd rfl hi

/-- Settles O39, by the access column in RUNNING. -/
theorem runningIgnoresTheHost : Obligations.RunningIgnoresTheHost := by
  intro s r hs
  exact ⟨hostWrite_of_not_writable (by simp [hs]), fun hr =>
    hostRead_of_not_readable (hs ▸ hostReadable_running hr)⟩

/-- Settles O40, by the access column in FAULT and the values CR1 to CR12 show. -/
theorem faultStateShowsOnlyCr1ToCr12 : Obligations.FaultStateShowsOnlyCr1ToCr12 := by
  intro s r hs
  rw [← hostReadable_fault_iff]
  cases hr : hostReadable r .fault with
  | true =>
    rw [hostRead_of_readable (hs ▸ hr)]
    simp [hostReadValue_isSome ((hostReadable_fault_iff r).mp hr).2]
  | false => simp [hostRead_of_not_readable (hs ▸ hr : hostReadable r s.status = false)]

/-! ## Registers -/

/-- No input changes a parameter (R5, R24). -/
theorem react_cfg {i : Input} {s t : State} (h : react i s = .next t) : t.cfg = s.cfg := by
  cases i with
  | tick =>
    obtain ⟨-, -, r, e, -, -, rfl⟩ := step_next_effect h
    simp
  | write r v =>
    cases hostWrite_next h with
    | ctrl _ hs hw =>
      obtain ⟨d, u, hu, ht⟩ := ctrlWrite_next hs hw
      have hcfg : u.cfg = s.cfg := by
        rcases hu with rfl | hu
        · rfl
        · obtain ⟨e, -, rfl⟩ := singleStep_next hu
          simp
      rcases ht with rfl | ⟨-, rfl⟩ <;> simp [hcfg]
    | ignored | progLen | stepRecLo | stepRecHi | progAddr | progData | memAddr | memData | stackPush | stackIndex =>
      rfl
  | read r => rw [react_read_next h]
  | reset =>
    cases h
    rfl

/-- Settles O42: no input changes a parameter, and CR7 is read-only. -/
theorem parametersNeverChange : Obligations.ParametersNeverChange :=
  ⟨fun _ _ _ => react_cfg, fun _ v => ⟨hostRead_of_readable (r := .memSize) rfl,
    hostWrite_of_not_writable (r := .memSize) rfl v⟩⟩

/-- Settles O43: CR9 and CR10 are readable and not writable in every state. -/
theorem pcAndSpAreReadOnlyViews : Obligations.PcAndSpAreReadOnlyViews := fun _ v =>
  ⟨hostRead_of_readable (r := .pc) rfl, hostRead_of_readable (r := .sp) rfl,
    hostWrite_of_not_writable (r := .pc) rfl v, hostWrite_of_not_writable (r := .sp) rfl v⟩

/-- A write of PROG_LEN in IDLE (R25). -/
theorem hostWrite_progLen {s : State} (hs : s.status = .idle) (v : U32) :
    hostWrite .progLen v s = .next (if v.toNat ≤ s.cfg.progMax then s.withProgLen v else s) :=
  hostWrite_of_writable (by simp [hostWritable, hs]) v

/-- Settles O44: the write of PROG_LEN, and START's framing check on what it left. -/
theorem progLenWritesUpToProgMax : Obligations.ProgLenWritesUpToProgMax := by
  refine fun s v => ⟨hostRead_of_readable (r := .progLen) rfl, fun hs => ⟨hostWrite_progLen hs v, fun hv => ?_,
    fun hv hlen => ?_⟩⟩
  · have hw : react (.write .progLen v) s = .next s := by
      rw [react, hostWrite_progLen hs, if_neg (Nat.not_le.mpr hv)]
    rw [reactAll_cons_of_react hw, reactAll]
  · have hw : react (.write .progLen v) s = .next (s.withProgLen v) := by
      rw [react, hostWrite_progLen hs, if_pos hv]
    have hstart : react (.write .ctrl 1) (s.withProgLen v) = .next (startRun (s.withProgLen v)) :=
      hostWrite_start hs rfl rfl
    have hfault : startRun (s.withProgLen v) = (s.withProgLen v).raiseFault .malformedStream 0 v .noOp := if_pos hlen
    refine ⟨(s.withProgLen v).raiseFault .malformedStream 0 v .noOp, ?_, rfl, rfl, rfl⟩
    rw [reactAll_cons_of_react hw, reactAll_cons_of_react hstart, hfault, reactAll]

/-! ## The data ports -/

theorem hostRead_memData_of_le {s : State} (h : s.cfg.memSize ≤ s.memAddr.toNat) : hostRead .memData s = none := by
  simp [hostRead, hostReadValue, (inBounds_eq_false_iff _ _).mpr h]

theorem hostRead_progData_of_le {s : State} (h : s.cfg.progMax ≤ s.progAddr.toNat) : hostRead .progData s = none := by
  simp [hostRead, hostReadValue, Nat.not_lt.mpr h]

theorem hostRead_stackData_of_le {s : State} (h : s.stack.length ≤ s.stackIndex.toNat) :
    hostRead .stackData s = none := by
  simp [hostRead, hostReadValue, List.getElem?_eq_none h]

/-- A write whose effect, where it reaches the register, is none is ignored. -/
theorem hostWrite_of_hostWriteReg_self {r : HostReg} {v : U32} {s : State} (h : hostWriteReg r v s = .next s) :
    hostWrite r v s = .next s := by
  rw [hostWrite, h, ite_self]

/-- Every write but CTRL's answers a next state. -/
theorem exists_hostWrite_next {r : HostReg} (hr : r ≠ .ctrl) (v : U32) (s : State) :
    ∃ t, hostWrite r v s = .next t := by
  cases hw : hostWritable r s.status with
  | false => exact ⟨s, hostWrite_of_not_writable hw v⟩
  | true =>
    rw [hostWrite_of_writable hw]
    cases r
    case ctrl => exact absurd rfl hr
    all_goals exact ⟨_, rfl⟩

/-- A host write to any register but CTRL changes neither the status nor the fault record (R29). -/
theorem HostEffect.status_fault {r : HostReg} {v : U32} {s t : State} (h : HostEffect v s r t) (hr : r ≠ .ctrl) :
    t.status = s.status ∧ t.fault = s.fault := by
  cases h
  case ctrl => exact absurd rfl hr
  all_goals exact ⟨rfl, rfl⟩

/-- Settles O45: each port's range test fails, and a write that answers has changed no status. -/
theorem dataPortsOutOfRange : Obligations.DataPortsOutOfRange := by
  refine fun s v => ⟨fun h => ⟨hostRead_memData_of_le h, ?_⟩, fun h => ⟨hostRead_progData_of_le h, ?_⟩,
    hostRead_stackData_of_le, fun d hd hl => ?_, fun r hr => ?_⟩
  · exact hostWrite_of_hostWriteReg_self (by simp [hostWriteReg, (inBounds_eq_false_iff _ _).mpr h])
  · exact hostWrite_of_hostWriteReg_self (by simp [hostWriteReg, Nat.not_lt.mpr h])
  · have hfull : s.stackFull = true := s.stackFull_iff.mpr ⟨d, hd, hl.ge⟩
    exact hostWrite_of_hostWriteReg_self (by simp [hostWriteReg, hfull])
  · have hctrl : r ≠ .ctrl := by
      rintro rfl
      simp at hr
    obtain ⟨t, ht⟩ := exists_hostWrite_next hctrl v s
    exact ⟨t, ht, (hostWrite_next ht).status_fault hctrl⟩

/-! ## The cells and the result -/

/-- A cell CTRL's write changes is the one named by the WRITE_MEM of STEP_REC: START changes no cell. -/
theorem ctrlWrite_writeMem_of_read_ne {v : U32} {s t : State} {a : Nat} (hi : s.Inv) (hs : s.status = .idle)
    (h : ctrlWrite v s = .next t) (ha : t.mem.read a ≠ s.mem.read a) :
    decode (stepRecord s) = .instr (.writeMem a) := by
  obtain ⟨d, u, hu, ht⟩ := ctrlWrite_next hs h
  have hmem : t.mem = u.mem := by rcases ht with rfl | ⟨-, rfl⟩ <;> simp
  rw [hmem] at ha
  rcases hu with rfl | hu
  · exact absurd rfl ha
  · obtain ⟨e, he, rfl⟩ := singleStep_next hu
    exact he.writeMem_of_read_ne hi.mem ha

/-- Settles O49, by the inputs and what each can do. -/
theorem cellsChangeOnlyByWritesToThem : Obligations.CellsChangeOnlyByWritesToThem := by
  intro i s t a hi ht ha
  cases i with
  | tick =>
    obtain ⟨hs, -, r, e, hf, he, rfl⟩ := step_next_effect ht
    rw [advance_mem] at ha
    exact .inr (.inr (.inl ⟨hs, rfl, r, hf, he.writeMem_of_read_ne hi.mem ha⟩))
  | write r v =>
    cases hostWrite_next ht with
    | ctrl _ hs hw =>
      exact .inr (.inr (.inr ⟨hs, ⟨v, rfl⟩, ctrlWrite_writeMem_of_read_ne hi hs hw ha⟩))
    | memData hs _ =>
      refine .inr (.inl ⟨hs, ⟨v, rfl⟩, ?_⟩)
      by_contra hne
      exact ha (by simp [Memory.read_write hi.mem, Ne.symm hne])
    | ignored | progLen | stepRecLo | stepRecHi | progAddr | progData | memAddr | stackPush | stackIndex =>
      exact absurd rfl ha
  | read r => exact absurd (by rw [react_read_next ht]) ha
  | reset => exact .inl rfl

/-- The addresses of a snapshot rise strictly (R36). -/
theorem snapshotOf_pairwise (size : Nat) (m : Memory) :
    (snapshotOf size m).Pairwise (fun x y => x.1 < y.1) := by
  refine List.Pairwise.filterMap _ (fun a b hab x hx y hy => ?_) List.pairwise_lt_range
  simp only [Option.ite_none_left_eq_some, Option.some.injEq] at hx hy
  obtain ⟨-, rfl⟩ := hx
  obtain ⟨-, rfl⟩ := hy
  exact hab

/-- The pairs of a snapshot: every address below the size with its signed value, where that is not 0 (R36). -/
theorem mem_snapshotOf_iff (size : Nat) (m : Memory) (a : Nat) (v : Int) :
    (a, v) ∈ snapshotOf size m ↔ a < size ∧ (m.read a).toInt = v ∧ v ≠ 0 := by
  simp only [snapshotOf, List.mem_filterMap, List.mem_range, Option.ite_none_left_eq_some, Option.some.injEq,
    Prod.mk.injEq]
  constructor
  · rintro ⟨b, hb, hne, rfl, rfl⟩
    exact ⟨hb, rfl, BitVec.toInt_ne.mpr hne⟩
  · rintro ⟨ha, rfl, hne⟩
    exact ⟨a, ha, BitVec.toInt_ne.mp hne, rfl, rfl⟩

/-- Settles O52. -/
theorem snapshotIsTheNonzeroCellsInOrder : Obligations.SnapshotIsTheNonzeroCellsInOrder := by
  intro s _ hs
  refine ⟨snapshotOf s.cfg.memSize s.mem, if_pos hs, snapshotOf_pairwise _ _, mem_snapshotOf_iff _ _, fun a ha => ?_⟩
  refine ⟨s.withMemAddr a, hostWrite_of_writable (by simp [hostWritable, hs]) a, ?_, rfl, hs⟩
  simp [hostRead, hostReadable, hostReadValue, hs, (inBounds_iff _ _).mpr ha]

end Sys2Proof.Machine
end

section
/-! PROOFS. The statements of 20_memory.md: the program store during a run, and the bounds comparator.
-/

namespace Sys2Proof.Machine

/-! ## The program store during a run -/

/-- No effect of an instruction reaches the program store (20_memory.md R48). -/
@[simp] theorem Effect.apply_prog (e : Effect) (s : State) : (e.apply s).prog = s.prog := by cases e <;> rfl

@[simp] theorem advance_prog (s : State) : (advance s).prog = s.prog := by
  unfold advance
  split_ifs <;> rfl

@[simp] theorem advance_progLen (s : State) : (advance s).progLen = s.progLen := by
  unfold advance
  split_ifs <;> rfl

/-- A step leaves the program store and PROG_LEN as they are (R48). -/
theorem step_prog_progLen {s t : State} (h : step s = .next t) : t.prog = s.prog ∧ t.progLen = s.progLen := by
  obtain ⟨-, -, r, e, -, -, rfl⟩ := step_next_effect h
  simp

/-- A host write while RUNNING changes nothing (10_state.md R27). -/
theorem hostWrite_running_next {r : HostReg} {v : U32} {s t : State} (hs : s.status = .running)
    (h : hostWrite r v s = .next t) : t = s := by
  rw [hostWrite_of_not_writable (by simp [hs])] at h
  cases h
  rfl

/-- Settles O41: a step executes and advances, and the host's acts other than reset change nothing while RUNNING. -/
theorem programIsConstantWhileRunning : Obligations.ProgramIsConstantWhileRunning := by
  intro i s t hs ht hi
  cases i with
  | tick => exact step_prog_progLen ht
  | write r v => simp [hostWrite_running_next hs ht]
  | read r => simp [react_read_next ht]
  | reset => exact absurd rfl hi

/-! ## The bounds comparator -/

/-- The fault record shows a 32-bit address unchanged (60_exceptions.md R101). -/
@[simp] theorem addressField_of_toNat (a : U32) : addressField a.toNat = a := by
  simp [addressField]

/-- Settles O19: the bounds check comes first in both instructions, so nothing but the address decides. -/
theorem outOfBoundsAccessAlwaysFaults : Obligations.OutOfBoundsAccessAlwaysFaults := by
  intro a s h
  have hread : exec (.readMem a.toNat) s = .next (s.raiseFault .outOfBounds opReadMem a .read) := by
    rw [exec, execReadMem_of_le h, addressField_of_toNat]
  have hwrite : exec (.writeMem a.toNat) s = .next (s.raiseFault .outOfBounds opWriteMem a .write) := by
    rw [exec, execWriteMem_of_le h, addressField_of_toNat]
  exact ⟨hread, hwrite⟩

/-- Settles O20: the comparator at the three sizes, and with no cell at all every access is out of bounds (O19). -/
theorem boundsComparatorEdgeCases : Obligations.BoundsComparatorEdgeCases := by
  refine ⟨fun c a hc => ?_, fun s t a hs ht => ?_, fun c a hc => ?_, fun a => ?_⟩
  · exact (inBounds_eq_false_iff c _).mpr (by omega)
  · obtain ⟨hread, hwrite⟩ := outOfBoundsAccessAlwaysFaults a s (by omega)
    rw [hread, hwrite] at ht
    rcases ht with ht | ht <;> cases ht <;> exact ⟨rfl, rfl⟩
  · exact (inBounds_iff c _).mpr (hc ▸ a.isLt)
  · exact (inBounds_iff Config.default _).trans Nat.lt_succ_iff

end Sys2Proof.Machine
end

section
/-! PROOFS. The statements of 30_encoding.md: the decoder from the record's five bytes, and the reserved opcodes.
-/

namespace Sys2Proof

/-! ## The decoder from the record's five bytes -/

/-- The two readings of a pattern differ from `2^31` on, by `2^32` (R65). -/
theorem sext32_eq_ite_zext32 (u : U32) : sext32 u =
    if zext32 u < 2147483648 then (zext32 u : Int) else (zext32 u : Int) - 4294967296 := rfl

/-- Settles O8: the decoder one opcode at a time, its unsigned operand the bytes by `operandPattern_toNat`. -/
theorem decoderReadsOpcodeAndTypedOperand : Obligations.DecoderReadsOpcodeAndTypedOperand := by
  intro r u hu
  have hzext : zext32 (operandPattern r) = u := (operandPattern_toNat r).trans hu.symm
  refine ⟨fun h => ?loadConst, fun h => ?readMem, fun h => ?writeMem, fun h => ?sgn, fun h => ?reserved⟩
  case loadConst => rw [decode_loadConst h, sext32_eq_ite_zext32, hzext]
  case readMem => rw [decode_readMem h, hzext]
  case writeMem => rw [decode_writeMem h, hzext]
  case sgn => rw [decode_sgn h, hzext]
  case reserved => exact decode_unknown h

end Sys2Proof

namespace Sys2Proof.Machine

/-! ## The reserved opcodes -/

/-- The reserved bytes are those outside the opcode map, in whatever order it lists its four (R68, R70). -/
theorem decode_of_reserved {r : Record} (h : r.b0 ∉ [0x00, 0x01, 0xA2, 0xCE]) : decode r = .unknown r.b0 := by
  have hperm : [opLoadConst, opReadMem, opWriteMem, opSgn].Perm [0x00, 0x01, 0xA2, 0xCE] := by decide
  exact decode_unknown (mt hperm.mem_iff.mp h)

/-- No step is enabled in FAULT (60_exceptions.md R113, R121). -/
theorem step_ne_next_of_fault {s : State} (h : s.status = .fault) (t : State) : step s ≠ .next t := by
  intro ht
  obtain ⟨hrunning, -⟩ := step_next ht
  rw [h] at hrunning
  cases hrunning

/-- Settles O10: a reserved byte reaches no instruction's meaning, and the state it faults into has no step. -/
theorem reservedOpcodeRaisesUnknownOpcode : Obligations.ReservedOpcodeRaisesUnknownOpcode := by
  intro r s h
  have hfault := executeRecord_of_unknown (decode_of_reserved h) s
  exact ⟨_, hfault, rfl, step_ne_next_of_fault (State.raiseFault_status ..)⟩

end Sys2Proof.Machine
end

section
/-! PROOFS. The statements of 40_data_movement.md: the whole rules of LOAD_CONST, READ_MEM and WRITE_MEM from the
record and in the assembler, and the value that a store and a read hand on.
-/

namespace Sys2Proof.Machine

/-! ## Execute, one data-movement opcode at a time -/

theorem executeRecord_loadConst {r : Record} (h : r.b0 = opLoadConst) (s : State) :
    executeRecord r s = pushOrOverflow opLoadConst (operandPattern r) s := by
  rw [executeRecord_of_instr (decode_loadConst h), exec, execLoadConst, constantOperand, ofInt_sext32]

theorem executeRecord_readMem {r : Record} (h : r.b0 = opReadMem) (s : State) :
    executeRecord r s = execReadMem (operandPattern r).toNat s :=
  executeRecord_of_instr (decode_readMem h) s

theorem executeRecord_writeMem {r : Record} (h : r.b0 = opWriteMem) (s : State) :
    executeRecord r s = execWriteMem (operandPattern r).toNat s :=
  executeRecord_of_instr (decode_writeMem h) s

/-- Within its capacity a stack is full exactly when its length is that capacity (R6, 60_exceptions.md R101). -/
theorem State.stackFull_iff_of_within {s : State} (h : ∀ d, s.cfg.stackDepth = some d → s.stack.length ≤ d) :
    s.stackFull = true ↔ s.cfg.stackDepth = some s.stack.length := by
  rw [State.stackFull_iff]
  constructor
  · rintro ⟨d, hd, hle⟩
    rw [hd, Nat.le_antisymm hle (h d hd)]
  · exact fun hd => ⟨_, hd, Nat.le_refl _⟩

/-- A push on a stack within its capacity overflows exactly at the capacity. -/
theorem pushOrOverflow_of_within {s : State} (h : ∀ d, s.cfg.stackDepth = some d → s.stack.length ≤ d) (opcode : Byte)
    (v : I32) : pushOrOverflow opcode v s = .next
      (if s.cfg.stackDepth = some s.stack.length then s.raiseFault .stackOverflow opcode 0 .noOp
        else s.pushValue v) := by
  simp only [← State.stackFull_iff_of_within h]
  exact (apply_ite _ _ _ _).symm

/-! ## The assembler's data-movement lines (30_encoding.md R78 to R80) -/

theorem assembleInstr_loadConst (ops : List Text) : assembleInstr mnLoadConst ops = assembleConstant ops := rfl

theorem assembleInstr_readMem (ops : List Text) : assembleInstr mnReadMem ops = assembleAddress .readMem ops := rfl

theorem assembleInstr_writeMem (ops : List Text) : assembleInstr mnWriteMem ops = assembleAddress .writeMem ops := rfl

theorem assembleConstant_of_parseInteger {t : Text} {c : Int} (h : parseInteger t = some c) (hc : inI32 c = true)
    (ops : List Text) : assembleConstant (t :: ops) = .ok (.loadConst c) := by
  simp [assembleConstant, integerOperand, h, hc]

theorem assembleAddress_of_parseInteger {t : Text} {a : Nat} (h : parseInteger t = some (a : Int))
    (ha : a ≤ 4294967295) (make : Nat → Instr) (ops : List Text) :
    assembleAddress make (t :: ops) = .ok (make a) := by
  have hu : inU32 a = true := decide_eq_true (by omega)
  simp [assembleAddress, integerOperand, h, hu]

/-! ## The whole rules -/

/-- Settles O15: LOAD_CONST is the push of its operand pattern, whose only fault is the overflow. -/
theorem loadConstRecordExecutesItsRule : Obligations.LoadConstRecordExecutesItsRule := by
  refine ⟨fun r s hr hd => ⟨operandPattern r, operandPattern_eq_append r, ?_⟩, fun t ops c ht hlo hhi => ⟨?_, rfl⟩⟩
  · exact (executeRecord_loadConst hr s).trans (pushOrOverflow_of_within hd _ _)
  · have hc : inI32 c = true := by
      simp only [inI32, Bool.and_eq_true, decide_eq_true_eq]
      omega
    rw [assembleInstr_loadConst, assembleConstant_of_parseInteger ht hc]

/-- Settles O16: the bounds check splits READ_MEM into OutOfBounds and the push of the cell. -/
theorem readMemRecordExecutesItsRule : Obligations.ReadMemRecordExecutesItsRule := by
  refine ⟨fun r s hr hd => ⟨operandPattern r, operandPattern_eq_append r, ?_⟩, fun t ops a ht ha => ⟨?_, rfl⟩⟩
  · rw [executeRecord_readMem hr]
    by_cases hb : s.cfg.memSize ≤ (operandPattern r).toNat
    · rw [if_pos hb, execReadMem_of_le hb, addressField_of_toNat]
      rfl
    · rw [if_neg hb, execReadMem_of_lt (Nat.lt_of_not_le hb)]
      exact pushOrOverflow_of_within hd _ _
  · rw [assembleInstr_readMem, assembleAddress_of_parseInteger ht ha]

/-- Settles O17: WRITE_MEM's three paths in the order of its checks, the store by `Memory.read_write`. -/
theorem writeMemRecordExecutesItsRule : Obligations.WriteMemRecordExecutesItsRule := by
  refine ⟨fun r s hr hm => ?_, fun t ops a ht ha => ⟨?_, rfl⟩⟩
  swap
  · rw [assembleInstr_writeMem, assembleAddress_of_parseInteger ht ha]
  simp only [executeRecord_writeMem hr]
  by_cases hb : s.cfg.memSize ≤ (operandPattern r).toNat
  · refine ⟨_, _, operandPattern_eq_append r, execWriteMem_of_le hb, ?_⟩
    rw [if_pos hb, addressField_of_toNat]
    rfl
  · have hlt := Nat.lt_of_not_le hb
    rcases stack_empty_or_top s.stack with hs | ⟨rest, v, hs⟩
    · refine ⟨_, _, operandPattern_eq_append r, execWriteMem_of_empty hlt hs, ?_⟩
      have htop : s.stack.getLast? = none := List.getLast?_eq_none_iff.mpr hs
      rw [if_neg hb]
      simp only [htop]
      rfl
    · refine ⟨_, _, operandPattern_eq_append r, execWriteMem_of_top hlt hs, ?_⟩
      rw [if_neg hb]
      simp only [hs, List.getLast?_concat, List.dropLast_concat]
      exact ⟨rfl, fun b => Memory.read_write hm _ b v⟩

/-! ## What a list of instructions does to memory -/

/-- Everything a push can have done, from the state it answers. -/
theorem pushOrOverflow_next {opcode : Byte} {v : I32} {s t : State} (h : pushOrOverflow opcode v s = .next t) :
    t = s.pushValue v ∨ t = s.raiseFault .stackOverflow opcode 0 .noOp := by
  rcases pushOrOverflow_spec opcode v s with ⟨-, hp⟩ | ⟨-, hp⟩ <;> rw [hp] at h <;> cases h
  · exact .inl rfl
  · exact .inr rfl

/-- An instruction keeps the parameters, and changes memory only as a WRITE_MEM in bounds, whatever its operand
(R15, R30). -/
theorem exec_next_mem {i : Instr} {s t : State} (h : exec i s = .next t) :
    t.cfg = s.cfg ∧
      (t.mem = s.mem ∨ ∃ a v, i = .writeMem a ∧ a < s.cfg.memSize ∧ t.mem = s.mem.write a v) := by
  cases i with
  | loadConst c =>
    rcases pushOrOverflow_next h with rfl | rfl <;> exact ⟨rfl, .inl rfl⟩
  | sgn u =>
    obtain ⟨e, he, hp⟩ := execSgn_effect u (.instr (.sgn u)) s
    cases hp.self.symm.trans h
    cases he with
    | store _ _ _ hd => cases hd
    | restack => exact ⟨rfl, .inl rfl⟩
    | fault => exact ⟨rfl, .inl rfl⟩
  | writeMem a =>
    rcases Nat.lt_or_ge a s.cfg.memSize with hlt | hge
    · rcases stack_empty_or_top s.stack with hs | ⟨rest, v, hs⟩
      · cases (execWriteMem_of_empty hlt hs).symm.trans h
        exact ⟨rfl, .inl rfl⟩
      · cases (execWriteMem_of_top hlt hs).symm.trans h
        exact ⟨rfl, .inr ⟨a, v, rfl, hlt, rfl⟩⟩
    · cases (execWriteMem_of_le hge).symm.trans h
      exact ⟨rfl, .inl rfl⟩
  | readMem a =>
    rcases Nat.lt_or_ge a s.cfg.memSize with hlt | hge
    · rcases pushOrOverflow_next ((execReadMem_of_lt hlt).symm.trans h) with rfl | rfl <;> exact ⟨rfl, .inl rfl⟩
    · cases (execReadMem_of_le hge).symm.trans h
      exact ⟨rfl, .inl rfl⟩

theorem exec_mem_wf {i : Instr} {s t : State} (hm : s.mem.wf s.cfg.memSize = true) (h : exec i s = .next t) :
    t.mem.wf t.cfg.memSize = true := by
  obtain ⟨hcfg, hmem | ⟨a, v, -, ha, hmem⟩⟩ := exec_next_mem h <;> rw [hcfg, hmem]
  · exact hm
  · exact Memory.wf_write hm ha v

theorem exec_read_of_ne_writeMem {i : Instr} {s t : State} {a : Nat} (hm : s.mem.wf s.cfg.memSize = true)
    (hi : i ≠ .writeMem a) (h : exec i s = .next t) : t.mem.read a = s.mem.read a := by
  obtain ⟨-, hmem | ⟨b, v, rfl, -, hmem⟩⟩ := exec_next_mem h <;> rw [hmem]
  have hab : a ≠ b := fun hab => hi (by rw [hab])
  rw [Memory.read_write hm, if_neg hab]

theorem execAll_cons_next {i : Instr} {rest : List Instr} {s u : State} (h : execAll (i :: rest) s = .next u) :
    ∃ t, exec i s = .next t ∧ execAll rest t = .next u := by
  rw [execAll] at h
  cases hi : exec i s with
  | next t => exact ⟨t, rfl, by rwa [hi] at h⟩
  | fault e => rw [hi] at h; cases h
  | refused e => rw [hi] at h; cases h

theorem execAll_cons_of_exec {i : Instr} {s t : State} (h : exec i s = .next t) (rest : List Instr) :
    execAll (i :: rest) s = execAll rest t := by
  simp only [execAll, h]

/-- Instructions with no WRITE_MEM to `a` among them keep the cell at `a`. -/
theorem execAll_read_of_ne_writeMem {is : List Instr} {s u : State} {a : Nat} (hm : s.mem.wf s.cfg.memSize = true)
    (hne : ∀ i ∈ is, i ≠ .writeMem a) (h : execAll is s = .next u) : u.mem.read a = s.mem.read a := by
  induction is generalizing s with
  | nil => cases h; rfl
  | cons i rest ih =>
    obtain ⟨t, hi, hrest⟩ := execAll_cons_next h
    obtain ⟨hne, hnerest⟩ := List.forall_mem_cons.mp hne
    calc u.mem.read a = t.mem.read a := ih (exec_mem_wf hm hi) hnerest hrest
      _ = s.mem.read a := exec_read_of_ne_writeMem hm hne hi

/-! ## What a store and a read hand on (R96) -/

/-- A WRITE_MEM that completes has stored the top. -/
theorem execWriteMem_completed {a : Nat} {s t : State} {v : I32} (hv : s.stack.getLast? = some v)
    (h : exec (.writeMem a) s = .next t) (ht : t.status ≠ .fault) : t.mem = s.mem.write a v := by
  rcases Nat.lt_or_ge a s.cfg.memSize with hlt | hge
  · obtain ⟨rest, hs⟩ := List.getLast?_eq_some_iff.mp hv
    cases (execWriteMem_of_top hlt hs).symm.trans h
    rfl
  · cases (execWriteMem_of_le hge).symm.trans h
    exact absurd rfl ht

/-- A READ_MEM that completes has pushed the cell. -/
theorem execReadMem_completed {a : Nat} {s t : State} (h : exec (.readMem a) s = .next t) (ht : t.status ≠ .fault) :
    t = s.pushValue (s.mem.read a) := by
  rcases Nat.lt_or_ge a s.cfg.memSize with hlt | hge
  · rcases pushOrOverflow_next ((execReadMem_of_lt hlt).symm.trans h) with rfl | rfl
    · rfl
    · exact absurd rfl ht
  · cases (execReadMem_of_le hge).symm.trans h
    exact absurd rfl ht

/-- The pushed constant, read as signed, is the operand (R91, R93). -/
theorem constantOperand_toInt {c : Int} (h : inI32 c = true) : (constantOperand c).toInt = c := by
  rw [← sext32_eq_toInt]
  exact sext32_ofInt h

/-- On a stack with room and in bounds, LOAD_CONST then WRITE_MEM changes only the cell. -/
theorem execAll_loadConst_writeMem {a : Nat} {s : State} (c : Int) (ha : a < s.cfg.memSize)
    (hd : ∀ d, s.cfg.stackDepth = some d → s.stack.length < d) :
    execAll [.loadConst c, .writeMem a] s = .next (s.withMem (s.mem.write a (constantOperand c))) := by
  have hload : exec (.loadConst c) s = .next (s.pushValue (constantOperand c)) :=
    pushOrOverflow_of_not_full (State.stackFull_eq_false hd)
  have hstore : exec (.writeMem a) (s.pushValue (constantOperand c)) =
      .next (s.withMem (s.mem.write a (constantOperand c))) :=
    execWriteMem_of_top (s := s.pushValue _) ha rfl
  rw [execAll_cons_of_exec hload, execAll_cons_of_exec hstore, execAll]

/-- Settles O50: the store puts the popped value in the cell, the instructions between keep the cell, the read pushes
it; and the constant's round trip is one store of its pattern. -/
theorem readMemPushesWhatWriteMemPopped : Obligations.ReadMemPushesWhatWriteMemPopped := by
  constructor
  · intro a between s t u w v hm _ hv hne hstore ht hbetween hread hw
    have hcell : u.mem.read a = v := by
      rw [execAll_read_of_ne_writeMem (exec_mem_wf hm hstore) hne hbetween, execWriteMem_completed hv hstore ht,
        Memory.read_write hm, if_pos rfl]
    rw [execReadMem_completed hread hw, State.pushValue_stack, hcell]
  · intro c a s hm hc ha hd
    refine ⟨_, execAll_loadConst_writeMem c ha hd, ?_, rfl, rfl⟩
    rw [State.withMem_mem, Memory.read_write hm, if_pos rfl, constantOperand_toInt hc]

end Sys2Proof.Machine
end

section
/-! PROOFS. The statement of 41_sign.md: the whole rule of SGN from the record and in the assembler.
-/

namespace Sys2Proof.Machine

/-! ## SGN from the record and in the assembler -/

theorem executeRecord_sgn {r : Record} (h : r.b0 = opSgn) (s : State) :
    executeRecord r s = execSgn (operandPattern r).toNat s :=
  executeRecord_of_instr (decode_sgn h) s

/-- The three patterns of a sign, spelled as the numbers 1, -1 and 0 (R98). -/
theorem signOf_eq_ofInt (v : I32) :
    signOf v = if v.toInt > 0 then BitVec.ofInt 32 1 else if v.toInt < 0 then BitVec.ofInt 32 (-1)
      else BitVec.ofInt 32 0 := rfl

theorem assembleInstr_sgn (ops : List Text) : assembleInstr mnSgn ops = .ok (.sgn 0) := rfl

/-! ## The whole rule -/

/-- Settles O18: SGN's three paths in the order of its checks, the operand check read off the record's pattern. -/
theorem sgnRecordExecutesItsRule : Obligations.SgnRecordExecutesItsRule := by
  refine ⟨fun r s hr => ⟨operandPattern r, operandPattern_eq_append r, ?_⟩, fun ops => ⟨assembleInstr_sgn ops, rfl⟩⟩
  have hzero : (operandPattern r).toNat ≠ 0 ↔ operandPattern r ≠ 0 := not_congr (BitVec.toNat_inj (y := 0))
  rw [executeRecord_sgn hr]
  by_cases hc : s.cfg.sgnOperandCheck = true ∧ operandPattern r ≠ 0
  · rw [if_pos hc, execSgn_of_checked (by rwa [hzero])]
    rfl
  · have hpass : ¬(s.cfg.sgnOperandCheck = true ∧ (operandPattern r).toNat ≠ 0) := by rwa [hzero]
    rw [if_neg hc]
    rcases stack_empty_or_top s.stack with hs | ⟨rest, v, hs⟩
    · have htop : s.stack.getLast? = none := List.getLast?_eq_none_iff.mpr hs
      simp only [execSgn_of_empty hpass hs, htop]
      rfl
    · simp only [execSgn_of_top hpass hs, hs, List.getLast?_concat, List.dropLast_concat, ← signOf_eq_ofInt]
      rfl

end Sys2Proof.Machine
end

section
/-! PROOFS. The statements of 60_exceptions.md: which fault an instruction raises, by the order of its checks, and that
only reset leaves FAULT.
-/

namespace Sys2Proof.Machine

/-! ## The first failing check of an instruction -/

/-- The fault of the first check an instruction fails, by the order of R110; `noFault` where it fails none. -/
def firstFault : Instr → State → FaultCode
  | .loadConst _, s => if s.stackFull = true then .stackOverflow else .noFault
  | .readMem a, s =>
    if s.cfg.memSize ≤ a then .outOfBounds else if s.stackFull = true then .stackOverflow else .noFault
  | .writeMem a, s =>
    if s.cfg.memSize ≤ a then .outOfBounds else if s.stack = [] then .stackUnderflow else .noFault
  | .sgn u, s =>
    if s.cfg.sgnOperandCheck = true ∧ u ≠ 0 then .illegalOperand
    else if s.stack = [] then .stackUnderflow else .noFault

section
variable {s t : State} (h0 : s.fault = FaultRecord.empty)
include h0

theorem pushOrOverflow_fault_code {opcode : Byte} {v : I32} (h : pushOrOverflow opcode v s = .next t) :
    t.fault.code = if s.stackFull = true then .stackOverflow else .noFault := by
  rcases pushOrOverflow_spec opcode v s with ⟨hf, hp⟩ | ⟨hf, hp⟩ <;> cases hp.symm.trans h
  · simp [hf, h0, FaultRecord.empty]
  · simp [hf]

theorem execReadMem_fault_code {a : Nat} (h : execReadMem a s = .next t) :
    t.fault.code = firstFault (.readMem a) s := by
  rw [firstFault]
  by_cases hb : s.cfg.memSize ≤ a
  · cases (execReadMem_of_le hb).symm.trans h
    rw [if_pos hb, State.raiseFault_fault]
  · rw [execReadMem_of_lt (Nat.lt_of_not_le hb)] at h
    rw [if_neg hb, pushOrOverflow_fault_code h0 h]

theorem execWriteMem_fault_code {a : Nat} (h : execWriteMem a s = .next t) :
    t.fault.code = firstFault (.writeMem a) s := by
  rw [firstFault]
  by_cases hb : s.cfg.memSize ≤ a
  · cases (execWriteMem_of_le hb).symm.trans h
    rw [if_pos hb, State.raiseFault_fault]
  · rw [if_neg hb]
    have hlt := Nat.lt_of_not_le hb
    rcases stack_empty_or_top s.stack with hs | ⟨rest, v, hs⟩
    · cases (execWriteMem_of_empty hlt hs).symm.trans h
      rw [if_pos hs, State.raiseFault_fault]
    · cases (execWriteMem_of_top hlt hs).symm.trans h
      simp [hs, h0, FaultRecord.empty]

theorem execSgn_fault_code {u : Nat} (h : execSgn u s = .next t) : t.fault.code = firstFault (.sgn u) s := by
  rw [firstFault]
  by_cases hc : s.cfg.sgnOperandCheck = true ∧ u ≠ 0
  · cases (execSgn_of_checked hc).symm.trans h
    rw [if_pos hc, State.raiseFault_fault]
  · rw [if_neg hc]
    rcases stack_empty_or_top s.stack with hs | ⟨rest, v, hs⟩
    · cases (execSgn_of_empty hc hs).symm.trans h
      rw [if_pos hs, State.raiseFault_fault]
    · cases (execSgn_of_top hc hs).symm.trans h
      simp [hs, h0, FaultRecord.empty]

/-- An instruction reports the first check it fails, and nothing where it fails none (R110). -/
theorem exec_fault_code {i : Instr} (h : exec i s = .next t) : t.fault.code = firstFault i s := by
  cases i with
  | loadConst c => exact pushOrOverflow_fault_code h0 h
  | readMem a => exact execReadMem_fault_code h0 h
  | writeMem a => exact execWriteMem_fault_code h0 h
  | sgn u => exact execSgn_fault_code h0 h

end

theorem firstFault_eq_stackOverflow_iff (i : Instr) (s : State) : firstFault i s = .stackOverflow ↔
    s.stackFull = true ∧ ((∃ c, i = .loadConst c) ∨ ∃ a, i = .readMem a ∧ a < s.cfg.memSize) := by
  cases i with
  | loadConst c => simp [firstFault]
  | readMem a =>
    rcases Nat.lt_or_ge a s.cfg.memSize with hlt | hge
    · simp [firstFault, Nat.not_le.mpr hlt, hlt]
    · simp [firstFault, hge, Nat.not_lt.mpr hge]
  | writeMem a | sgn u =>
    simp only [firstFault]
    split_ifs <;> simp

theorem firstFault_eq_illegalOperand_iff (i : Instr) (s : State) : firstFault i s = .illegalOperand ↔
    s.cfg.sgnOperandCheck = true ∧ ∃ u, i = .sgn u ∧ u ≠ 0 := by
  cases i with
  | sgn u =>
    by_cases hc : s.cfg.sgnOperandCheck = true ∧ u ≠ 0
    · simp [firstFault, hc]
    · simp only [firstFault, if_neg hc]
      split_ifs <;> simpa using hc
  | loadConst c | readMem a | writeMem a =>
    simp only [firstFault]
    split_ifs <;> simp

/-! ## Which fault is raised -/

/-- Settles O21: the bounds check and the operand check pass, and the pop finds nothing. -/
theorem popOnEmptyStackAlwaysUnderflows : Obligations.PopOnEmptyStackAlwaysUnderflows := by
  refine fun s hs => ⟨fun a ha => execWriteMem_of_empty ha hs, fun u hu => execSgn_of_empty ?_ hs⟩
  rintro ⟨hcheck, hne⟩
  rcases hu with hoff | hzero
  · exact absurd (hcheck.symm.trans hoff) nofun
  · exact hne hzero

/-- Settles O22: the overflow check is the first to fail on a full stack, in the two instructions that push without a
pop; a full stack has a finite depth. -/
theorem stackOverflowExactlyOnAFullFiniteStack : Obligations.StackOverflowExactlyOnAFullFiniteStack := by
  intro i s t h0 h
  have hiff := firstFault_eq_stackOverflow_iff i s
  rw [← exec_fault_code h0 h, State.stackFull_iff] at hiff
  simp only [Nat.lt_succ_iff]
  refine ⟨hiff, fun hinf hcode => ?_⟩
  obtain ⟨⟨d, hd, -⟩, -⟩ := hiff.mp hcode
  cases hinf.symm.trans hd

/-- Settles O23: the operand check is SGN's first and no other instruction's; the default does not enable it. -/
theorem illegalOperandExactlyOnACheckedSgn : Obligations.IllegalOperandExactlyOnACheckedSgn := by
  intro i s t h0 h
  have hiff := firstFault_eq_illegalOperand_iff i s
  rw [← exec_fault_code h0 h] at hiff
  refine ⟨hiff, fun hdefault hcode => ?_⟩
  obtain ⟨hcheck, -⟩ := hiff.mp hcode
  cases hdefault.symm.trans hcheck

/-- Settles O24: the table of R110 is `firstFault`, where the stack is full exactly at its capacity. -/
theorem faultsFollowTheOrderOfChecks : Obligations.FaultsFollowTheOrderOfChecks := by
  intro r s t h0 hwithin h
  cases hd : decode r with
  | unknown op =>
    cases (executeRecord_of_unknown hd s).symm.trans h
    rfl
  | instr i =>
    have hcode := exec_fault_code h0 ((executeRecord_of_instr hd s).symm.trans h)
    cases i with
    | loadConst c | readMem a =>
      simp only [firstFault, State.stackFull_iff_of_within hwithin] at hcode
      exact hcode
    | writeMem a | sgn u => exact hcode

/-! ## FAULT is left only by reset (R113) -/

/-- No register is writable in FAULT (10_state.md R23, R28). -/
@[simp] theorem hostWritable_fault (r : HostReg) : hostWritable r .fault = false := by cases r <;> rfl

theorem hostWrite_of_fault {s : State} (hs : s.status = .fault) (r : HostReg) (v : U32) :
    hostWrite r v s = .next s :=
  hostWrite_of_not_writable (by simp [hs]) v

/-- Settles O26: no step is enabled, no register is writable and a read changes nothing, so reset alone is left. -/
theorem faultIsStickyUntilReset : Obligations.FaultIsStickyUntilReset := by
  refine fun s hs => ⟨step_ne_next_of_fault hs, hostWrite_of_fault hs, fun i t ht => ?_, hardReset s, rfl, rfl, rfl⟩
  cases i with
  | tick => exact absurd ht (step_ne_next_of_fault hs t)
  | write r v =>
    cases (hostWrite_of_fault hs r v).symm.trans ht
    exact .inr rfl
  | read r => exact .inr (react_read_next ht)
  | reset => exact .inl rfl

end Sys2Proof.Machine
end

section
/-! PROOFS. The statement of 70_reset_and_hazards.md: what reset leaves, from any state.
-/

namespace Sys2Proof.Machine

/-! ## Reset (R122) -/

/-- Reset answers in every state, RUNNING and FAULT included. -/
theorem react_reset (s : State) : react .reset s = .next (hardReset s) := rfl

/-- Reset leaves no cell listed, and an unlisted cell reads 0. -/
theorem hardReset_mem_read (s : State) (a : Nat) : (hardReset s).mem.read a = 0 := by
  rw [hardReset_mem, Memory.read_empty]

/-- Reset leaves no program byte listed, and an unlisted byte has no value (R123). -/
theorem hardReset_prog_read (s : State) (i : Nat) : (hardReset s).prog.read i = none := by
  rw [hardReset_prog, ProgramStore.read_empty]

/-- CTRL has no stored bit to show; FAULT is the one status that hides it (R23, R28). -/
theorem hostRead_ctrl {s : State} (hs : s.status ≠ .fault) : hostRead .ctrl s = some 0 :=
  hostRead_of_readable (decide_eq_true hs)

theorem hardReset_status_ne_fault (s : State) : (hardReset s).status ≠ .fault := by
  rw [hardReset_status]
  decide

/-- CR7 shows the instance's parameter in every status (R24). -/
theorem hostRead_memSize (s : State) : hostRead .memSize s = some s.cfg.memSize :=
  hostRead_of_readable (r := .memSize) rfl

/-- Settles O1: the state is `hardReset s`, row by row of R122's table; CTRL is readable there as it is not FAULT. -/
theorem resetPutsEveryPieceOfStateInItsValue : Obligations.ResetPutsEveryPieceOfStateInItsValue := fun s =>
  ⟨hardReset s, react_reset s, hardReset_status s, hardReset_pc s, hardReset_stack s, hardReset_mem_read s,
    hardReset_cfg s, hardReset_fault s, hardReset_progLen s, hardReset_stepRecLo s, hardReset_stepRecHi s,
    hardReset_progAddr s, hardReset_memAddr s, hardReset_stackIndex s, hostRead_ctrl (hardReset_status_ne_fault s),
    hardReset_prog_read s, hostRead_memSize State.reset⟩

end Sys2Proof.Machine
end


section
/-! PROOFS. The invariant as the obligations state it: at reset, after a step, after any input.
-/

namespace Sys2Proof.Machine

/-- Settles O2. -/
theorem resetStateIsConsistent : Obligations.ResetStateIsConsistent :=
  ⟨fun _ => inv_resetWith, inv_resetWith (by decide)⟩

/-- Settles O3: a step is one effect of the fetched record and the sequencer's advance, and both keep the invariant. -/
theorem stepKeepsConsistency : Obligations.StepKeepsConsistency := fun _ _ => inv_step

/-- Settles O4, by the four kinds of input. -/
theorem everyInputKeepsConsistency : Obligations.EveryInputKeepsConsistency := fun _ _ _ => inv_react

end Sys2Proof.Machine
end

section
/-! PROOFS. The statements of 30_encoding.md about the encoder: the round trips, and the records of the test vectors.
-/

namespace Sys2Proof

/-- The record of an instruction decodes to it: the opcode selects its row, and its operand is read back from its
pattern (30_encoding.md R64, R65). -/
theorem decode_encode {i : Instr} (h : wellFormed i = true) : decode (encode i) = .instr i := by
  cases i with
  | loadConst c => rw [decode_loadConst rfl, encode, operandPattern_recordOf, sext32_ofInt h]
  | sgn u => rw [decode_sgn rfl, encode, operandPattern_recordOf, zext32_ofNat h]
  | writeMem a => rw [decode_writeMem rfl, encode, operandPattern_recordOf, zext32_ofNat h]
  | readMem a => rw [decode_readMem rfl, encode, operandPattern_recordOf, zext32_ofNat h]

/-- A record that decodes to an instruction has that instruction's opcode byte, and its operand pattern is the
operand's (30_encoding.md R65, R68). -/
theorem decode_eq_instr {r : Record} {i : Instr} (h : decode r = .instr i) :
    (r.b0 = opLoadConst ∧ i = .loadConst (sext32 (operandPattern r))) ∨
    (r.b0 = opReadMem ∧ i = .readMem (zext32 (operandPattern r))) ∨
    (r.b0 = opWriteMem ∧ i = .writeMem (zext32 (operandPattern r))) ∨
    (r.b0 = opSgn ∧ i = .sgn (zext32 (operandPattern r))) := by
  unfold decode at h
  simp only at h
  split_ifs at h with hl hr hw hs <;> cases h
  · exact .inl ⟨hl, rfl⟩
  · exact .inr (.inl ⟨hr, rfl⟩)
  · exact .inr (.inr (.inl ⟨hw, rfl⟩))
  · exact .inr (.inr (.inr ⟨hs, rfl⟩))

/-- The encoder gives back the record an instruction was decoded from. -/
theorem encode_of_decode {r : Record} {i : Instr} (h : decode r = .instr i) : encode i = r := by
  rcases decode_eq_instr h with ⟨hb, rfl⟩ | ⟨hb, rfl⟩ | ⟨hb, rfl⟩ | ⟨hb, rfl⟩
  · rw [encode, ofInt_sext32, ← hb, recordOf_operandPattern]
  all_goals rw [encode, ofNat_zext32, ← hb, recordOf_operandPattern]

/-- Settles O6. -/
theorem decodeOfEncodeIsTheInstruction : Obligations.DecodeOfEncodeIsTheInstruction := fun _ => decode_encode

/-- Settles O7: the opcode byte and the operand pattern are the whole record. -/
theorem encodeOfDecodeIsTheRecord : Obligations.EncodeOfDecodeIsTheRecord := fun _ _ h =>
  ⟨wellFormed_of_decode h, encode_of_decode h⟩

/-- Settles O9: each written-out record is evaluated. -/
theorem writtenOutRecordsDecode : Obligations.WrittenOutRecordsDecode := by
  refine ⟨?_, ?_, ?_, ?_, ?_, ?_⟩ <;> decide

end Sys2Proof
end

section
/-! PROOFS. The instructions: where each completes (40_data_movement.md R93 to R95, 41_sign.md R98), that none reaches
below the top of the stack (10_state.md R12), and the count of the depth (R97).
-/

namespace Sys2Proof.Machine

/-! ## Where each instruction completes -/

/-- Settles O11. -/
theorem loadConstPushesItsConstant : Obligations.LoadConstPushesItsConstant := fun c _ hc hroom =>
  ⟨constantOperand c, _, pushOrOverflow_of_not_full (State.stackFull_eq_false hroom), constantOperand_toInt hc, rfl,
    fun _ => rfl⟩

/-- Settles O12. -/
theorem readMemPushesTheCell : Obligations.ReadMemPushesTheCell := fun _ _ _ ha hroom =>
  ⟨_, (execReadMem_of_lt ha).trans (pushOrOverflow_of_not_full (State.stackFull_eq_false hroom)), rfl, fun _ => rfl⟩

/-- Settles O13: WRITE_MEM's completing path, read back by `Memory.read_write`. -/
theorem writeMemStoresThePoppedTop : Obligations.WriteMemStoresThePoppedTop := by
  intro a s rest v _ hm ha hs
  refine ⟨_, execWriteMem_of_top ha hs, rfl, ?_, fun b hb => ?_⟩
  · exact (Memory.read_write hm a a v).trans (if_pos rfl)
  · exact (Memory.read_write hm a b v).trans (if_neg hb)

/-- Settles O14: the operand check passes where it is off or the operand is 0. -/
theorem sgnReplacesTheTopByItsSign : Obligations.SgnReplacesTheTopByItsSign := by
  intro u s rest v _ hpass hs
  have hc : ¬(s.cfg.sgnOperandCheck = true ∧ u ≠ 0) := by
    rintro ⟨hcheck, hne⟩
    rcases hpass with hoff | hzero
    · exact absurd (hcheck.symm.trans hoff) nofun
    · exact hne hzero
  exact ⟨signOf v, _, execSgn_of_top hc hs, signOf_toInt v, rfl, fun _ => rfl⟩

/-! ## The entries below the top (10_state.md R12) -/

/-- `f` leaves the entries below a part `up` of the stack that holds the top, whatever they are, and only their number
may matter to what it does above them. -/
def ActsAbove (f : State → Host.Outcome State Fault Refusal) : Prop :=
  ∀ (s : State) (low up : List I32), up ≠ [] → ∃ (t : State) (up' : List I32),
    ∀ low' : List I32, low'.length = low.length → f (s.withStack (low' ++ up)) = .next (t.withStack (low' ++ up'))

/-- The overflow check reads the depth only (60_exceptions.md R106). -/
theorem State.stackFull_withStack_congr (s : State) {l l' : List I32} (h : l.length = l'.length) :
    (s.withStack l).stackFull = (s.withStack l').stackFull := by
  rw [Bool.eq_iff_iff, State.stackFull_iff, State.stackFull_iff]
  simp only [State.withStack_cfg, State.withStack_stack, h]

theorem pushOrOverflow_actsAbove (opcode : Byte) (v : I32) : ActsAbove (pushOrOverflow opcode v) := by
  intro s low up _
  have hfull : ∀ low' : List I32, low'.length = low.length →
      (s.withStack (low' ++ up)).stackFull = (s.withStack (low ++ up)).stackFull := fun low' hl =>
    s.stackFull_withStack_congr (by simp [hl])
  cases hf : (s.withStack (low ++ up)).stackFull with
  | true =>
    exact ⟨s.raiseFault .stackOverflow opcode 0 .noOp, up, fun low' hl =>
      pushOrOverflow_of_full ((hfull low' hl).trans hf)⟩
  | false =>
    refine ⟨s, up ++ [v], fun low' hl => ?_⟩
    rw [pushOrOverflow_of_not_full ((hfull low' hl).trans hf), State.pushValue, State.withStack_stack,
      List.append_assoc]
    rfl

theorem execReadMem_actsAbove (a : Nat) : ActsAbove (execReadMem a) := by
  intro s low up hup
  rcases Nat.lt_or_ge a s.cfg.memSize with hlt | hge
  · obtain ⟨t, up', h⟩ := pushOrOverflow_actsAbove opReadMem (s.mem.read a) s low up hup
    exact ⟨t, up', fun low' hl => (execReadMem_of_lt (s := s.withStack (low' ++ up)) hlt).trans (h low' hl)⟩
  · exact ⟨s.raiseFault .outOfBounds opReadMem (addressField a) .read, up, fun _ _ => execReadMem_of_le hge⟩

theorem execWriteMem_actsAbove (a : Nat) : ActsAbove (execWriteMem a) := by
  intro s low up hup
  rcases Nat.lt_or_ge a s.cfg.memSize with hlt | hge
  · obtain ⟨rest, v, rfl⟩ := (stack_empty_or_top up).resolve_left hup
    exact ⟨s.withMem (s.mem.write a v), rest, fun low' _ =>
      execWriteMem_of_top (rest := low' ++ rest) hlt (List.append_assoc ..).symm⟩
  · exact ⟨s.raiseFault .outOfBounds opWriteMem (addressField a) .write, up, fun _ _ => execWriteMem_of_le hge⟩

theorem execSgn_actsAbove (u : Nat) : ActsAbove (execSgn u) := by
  intro s low up hup
  by_cases hc : s.cfg.sgnOperandCheck = true ∧ u ≠ 0
  · exact ⟨s.raiseFault .illegalOperand opSgn 0 .noOp, up, fun _ _ => execSgn_of_checked hc⟩
  · obtain ⟨rest, v, rfl⟩ := (stack_empty_or_top up).resolve_left hup
    refine ⟨s, rest ++ [signOf v], fun low' _ => ?_⟩
    rw [execSgn_of_top (s := s.withStack (low' ++ (rest ++ [v]))) hc (List.append_assoc ..).symm, State.pushValue,
      State.withStack_stack, List.append_assoc]
    rfl

theorem exec_actsAbove (i : Instr) : ActsAbove (exec i) := by
  cases i with
  | loadConst c => exact pushOrOverflow_actsAbove opLoadConst (constantOperand c)
  | sgn u => exact execSgn_actsAbove u
  | writeMem a => exact execWriteMem_actsAbove a
  | readMem a => exact execReadMem_actsAbove a

/-- An instruction that answers a next state leaves the entries below the top, and does the same above others of the
same number. -/
theorem exec_above {i : Instr} {s t : State} {low up : List I32} (hup : up ≠ []) (hs : s.stack = low ++ up)
    (h : exec i s = .next t) : ∃ up', t.stack = low ++ up' ∧ ∀ low', low'.length = low.length →
      exec i (s.withStack (low' ++ up)) = .next (t.withStack (low' ++ up')) := by
  obtain ⟨u, up', hu⟩ := exec_actsAbove i s low up hup
  have hself := hu low rfl
  rw [← hs] at hself
  cases hself.symm.trans h
  exact ⟨up', rfl, hu⟩

/-- Settles O29: the first clause is the second with the top alone as the upper part. -/
theorem instructionsReachOnlyTheTop : Obligations.InstructionsReachOnlyTheTop := by
  refine ⟨fun i s t h => ?_, fun i s t low low' up hup hlen hs h => ?_⟩
  · rcases stack_empty_or_top s.stack with hs | ⟨rest, v, hs⟩
    · simp [hs]
    · obtain ⟨up', ht, -⟩ := exec_above (List.cons_ne_nil v []) hs h
      rw [hs, List.dropLast_concat, ht]
      exact ⟨up', rfl⟩
  · obtain ⟨up', ht, habove⟩ := exec_above hup hs h
    exact ⟨up', ht, habove low' hlen.symm⟩

/-! ## The depth of the stack (40_data_movement.md R97) -/

/-- An instruction raises a fault, or keeps the status and changes the depth by its count. -/
theorem exec_next_depth {i : Instr} {s t : State} (h : exec i s = .next t) :
    t.status = .fault ∨ t.status = s.status ∧ (t.stack.length : Int) = s.stack.length + depthEffect i := by
  cases i with
  | loadConst c =>
    rcases pushOrOverflow_next h with rfl | rfl
    · exact .inr ⟨rfl, by simp [depthEffect]⟩
    · exact .inl rfl
  | sgn u =>
    by_cases hc : s.cfg.sgnOperandCheck = true ∧ u ≠ 0
    · cases (execSgn_of_checked hc).symm.trans h
      exact .inl rfl
    · rcases stack_empty_or_top s.stack with hs | ⟨rest, v, hs⟩
      · cases (execSgn_of_empty hc hs).symm.trans h
        exact .inl rfl
      · cases (execSgn_of_top hc hs).symm.trans h
        exact .inr ⟨rfl, by simp [hs, depthEffect]⟩
  | writeMem a =>
    rcases Nat.lt_or_ge a s.cfg.memSize with hlt | hge
    · rcases stack_empty_or_top s.stack with hs | ⟨rest, v, hs⟩
      · cases (execWriteMem_of_empty hlt hs).symm.trans h
        exact .inl rfl
      · cases (execWriteMem_of_top hlt hs).symm.trans h
        exact .inr ⟨rfl, by simp [hs, depthEffect]⟩
    · cases (execWriteMem_of_le hge).symm.trans h
      exact .inl rfl
  | readMem a =>
    rcases Nat.lt_or_ge a s.cfg.memSize with hlt | hge
    · rcases pushOrOverflow_next ((execReadMem_of_lt hlt).symm.trans h) with rfl | rfl
      · exact .inr ⟨rfl, by simp [depthEffect]⟩
      · exact .inl rfl
    · cases (execReadMem_of_le hge).symm.trans h
      exact .inl rfl

/-- A fault, once raised, stays in the status. -/
theorem execAll_status_of_fault {is : List Instr} {s t : State} (hs : s.status = .fault)
    (h : execAll is s = .next t) : t.status = .fault := by
  induction is generalizing s with
  | nil => cases h; exact hs
  | cons i rest ih =>
    obtain ⟨u, hi, hrest⟩ := execAll_cons_next h
    refine ih ?_ hrest
    rcases exec_next_depth hi with hu | ⟨hu, -⟩
    · exact hu
    · exact hu.trans hs

/-- Instructions that raised no fault have changed the depth by the sum of their counts. -/
theorem execAll_depth {is : List Instr} {s t : State} (h : execAll is s = .next t) (ht : t.status ≠ .fault) :
    (t.stack.length : Int) = s.stack.length + (is.map depthEffect).sum := by
  induction is generalizing s with
  | nil => cases h; simp
  | cons i rest ih =>
    obtain ⟨u, hi, hrest⟩ := execAll_cons_next h
    have hu : (u.stack.length : Int) = s.stack.length + depthEffect i := by
      rcases exec_next_depth hi with hu | ⟨-, hu⟩
      · exact absurd (execAll_status_of_fault hu hrest) ht
      · exact hu
    rw [ih hrest, hu, List.map_cons, List.sum_cons, Int.add_assoc]

/-- Settles O51: where the count is 0 the stack is empty, and a pop on it underflows (O21). -/
theorem stackDepthFollowsTheInstructionCount : Obligations.StackDepthFollowsTheInstructionCount := by
  intro is s t _ h ht
  have hdepth := execAll_depth h ht
  refine ⟨hdepth, fun hzero => ?_⟩
  have hempty : t.stack = [] := List.eq_nil_of_length_eq_zero (by omega)
  obtain ⟨hwrite, hsgn⟩ := popOnEmptyStackAlwaysUnderflows t hempty
  refine ⟨fun a u ha hu => ?_, fun n u hn hu => ?_⟩
  · cases (hwrite a ha).symm.trans hu
    rfl
  · cases (hsgn n hn).symm.trans hu
    rfl

end Sys2Proof.Machine
end

section
/-! PROOFS. `Execute` and the run sequencer (10_state.md R30 to R34): what an effect leaves unchanged, precise fault
entry, the step of a run, and the length of a run.
-/

namespace Sys2Proof.Machine

/-! ## Execute -/

/-- Settles O27, by the two forms of an effect. -/
theorem executeWritesOnlyStackAndMemory : Obligations.ExecuteWritesOnlyStackAndMemory := by
  intro r s
  obtain ⟨e, -, hp⟩ := executeRecord_effect r s
  refine ⟨e.apply s, hp.self, ?_, e.apply_pc s, e.apply_prog s, e.apply_progLen s, e.apply_cfg s⟩
  cases e with
  | update l m => exact .inl rfl
  | fault code opcode addr op => exact .inr rfl

/-- Settles O28: both states take the effect that the record has in the first. -/
theorem executeReadsOnlyStackAndMemory : Obligations.ExecuteReadsOnlyStackAndMemory := by
  intro r s s' t t' hcfg hstack hmem hs hs' ht ht'
  obtain ⟨e, -, hp⟩ := executeRecord_effect r s
  cases hp.self.symm.trans ht
  cases (hp s' ⟨hcfg.symm, hstack.symm, hmem.symm⟩).symm.trans ht'
  cases e with
  | update l m => simp [hs, hs']
  | fault code opcode addr op => exact ⟨hstack, hmem, rfl, rfl, rfl, rfl⟩

/-! ## Fault entry (60_exceptions.md R111, R112) -/

theorem advance_of_fault {s : State} (h : s.status = .fault) : advance s = s := if_pos h

/-- The sequencer raises no fault of its own. -/
theorem advance_status_ne_fault {s : State} (h : s.status ≠ .fault) : (advance s).status ≠ .fault := by
  rcases advance_spec s with ⟨hf, -⟩ | ⟨-, -, ha⟩ | ⟨-, -, ha⟩
  · exact absurd hf h
  · rw [ha]
    nofun
  · rw [ha]
    exact h

/-- Settles O25: a step that ends in FAULT has had the effect of a fault, which the sequencer leaves as it is. -/
theorem faultEntryIsPrecise : Obligations.FaultEntryIsPrecise := by
  intro s t _ ht hfault
  obtain ⟨hs, -, r, e, -, he, rfl⟩ := step_next_effect ht
  cases he with
  | restack | store => exact absurd hfault (advance_status_ne_fault (by simp [hs]))
  | fault code opcode addr op hc hm hrow =>
    rw [Effect.apply_fault, advance_of_fault rfl]
    exact ⟨rfl, rfl, fun _ => rfl, rfl, hc, hm, rfl, hrow s.pc, step_ne_next_of_fault rfl⟩

/-! ## The step of a run -/

/-- The sequencer's advance in terms of the state before `Execute`, which keeps `pc` and PROG_LEN (R30, R32). -/
theorem advance_of_same_pc {s u : State} (hpc : u.pc = s.pc) (hlen : u.progLen = s.progLen) : advance u =
    if u.status = .fault then u
    else if s.pc + 5 = s.progLen then { u with pc := s.pc + 5, status := .done }
    else { u with pc := s.pc + 5 } := by
  rw [← hpc, ← hlen]
  rfl

/-- Settles O30: the five bytes are the fetched record, and an effect keeps `pc` and PROG_LEN. -/
theorem stepRunsTheDecodedInstruction : Obligations.StepRunsTheDecodedInstruction := by
  intro s r hs hp h0 h1 h2 h3 h4
  have hfetch : fetch s = some r := (fetch_eq_some_iff s r).mpr ⟨h0, h1, h2, h3, h4⟩
  have hstep : ∀ u, executeRecord r s = .next u → step s = .next
      (if u.status = .fault then u
      else if s.pc + 5 = s.progLen then { u with pc := s.pc + 5, status := .done }
      else { u with pc := s.pc + 5 }) := by
    intro u hu
    obtain ⟨e, -, rfl⟩ := executeRecord_next hu
    rw [step_of_executeRecord hs hp hfetch hu, advance_of_same_pc (e.apply_pc s) (e.apply_progLen s)]
  refine ⟨hstep, fun i u hd hu => hstep u ((executeRecord_of_instr hd s).trans hu), fun op hd => ?_⟩
  rw [hstep _ (executeRecord_of_unknown hd s), if_pos (State.raiseFault_status ..)]
  rfl

/-- A fetch fails exactly where one of the five bytes has no value (70_reset_and_hazards.md R123). -/
theorem fetch_eq_none_iff (s : State) : fetch s = none ↔ ∃ k < 5, s.prog.read (s.pc.toNat + k) = none := by
  constructor
  · intro h
    by_contra hall
    have hbyte : ∀ k < 5, ∃ b, s.prog.read (s.pc.toNat + k) = some b := fun k hk =>
      Option.ne_none_iff_exists'.mp fun hn => hall ⟨k, hk, hn⟩
    obtain ⟨b0, h0⟩ := hbyte 0 (by decide)
    obtain ⟨b1, h1⟩ := hbyte 1 (by decide)
    obtain ⟨b2, h2⟩ := hbyte 2 (by decide)
    obtain ⟨b3, h3⟩ := hbyte 3 (by decide)
    obtain ⟨b4, h4⟩ := hbyte 4 (by decide)
    cases h.symm.trans ((fetch_eq_some_iff s ⟨b0, b1, b2, b3, b4⟩).mpr ⟨h0, h1, h2, h3, h4⟩)
  · rintro ⟨k, hk, hn⟩
    cases hf : fetch s with
    | none => rfl
    | some r =>
      obtain ⟨h0, h1, h2, h3, h4⟩ := (fetch_eq_some_iff s r).mp hf
      interval_cases k <;> simp_all

/-- Settles O33. -/
theorem fetchOfAnUnwrittenByteIsRefused : Obligations.FetchOfAnUnwrittenByteIsRefused := by
  intro s k hs hp hk hn
  have hfetch : fetch s = none := (fetch_eq_none_iff s).mpr ⟨k, hk, hn⟩
  simp only [step, sequencerStep, hs, runStep, if_neg (Nat.not_lt.mpr hp), hfetch]

/-- Settles O34, by the status. -/
theorem noStepOutsideARun : Obligations.NoStepOutsideARun := by
  intro s
  refine ⟨fun hs => ?idle, fun hs => ?done, fun hs => ?fault, fun t ht => ?next⟩
  case next =>
    obtain ⟨hs, -⟩ := step_next ht
    exact hs
  all_goals simp only [step, sequencerStep, hs]

/-! ## The length of a run -/

/-- After a step the block runs on, or has ended in DONE or FAULT. -/
theorem step_next_status {s t : State} (h : step s = .next t) :
    t.status = .running ∨ t.status = .done ∨ t.status = .fault := by
  obtain ⟨hs, -, r, e, -, -, rfl⟩ := step_next_effect h
  have he : (e.apply s).status = .running ∨ (e.apply s).status = .fault := by
    cases e with
    | update => exact .inl hs
    | fault => exact .inr rfl
  rcases advance_spec (e.apply s) with ⟨hf, ha⟩ | ⟨-, -, ha⟩ | ⟨hf, -, ha⟩ <;> rw [ha]
  · exact .inr (.inr hf)
  · exact .inr (.inl rfl)
  · exact .inl (he.resolve_right hf)

/-- A run that answers after `k + 1` steps has made its first. -/
theorem run_succ_next {k : Nat} {s t : State} (h : Host.Core.run Sys2Proof.core (k + 1) s = .next t) :
    ∃ u, step s = .next u ∧ Host.Core.run Sys2Proof.core k u = .next t := by
  cases hu : step s with
  | next u => exact ⟨u, rfl, (run_succ_of_step hu k).symm.trans h⟩
  | fault e | refused e =>
    have hcore : Sys2Proof.core.step s = _ := hu
    simp only [Host.Core.run, hcore] at h
    cases h

/-- In a run a whole number of records, and at least one, is left (R19). -/
theorem State.Inv.records_left {s : State} (h : s.Inv) (hs : s.status = .running) :
    ∃ n, s.progLen.toNat = s.pc.toNat + 5 * (n + 1) := by
  obtain ⟨hpc, hlen, hle⟩ := h.running hs
  exact ⟨(s.progLen.toNat - s.pc.toNat) / 5 - 1, by omega⟩

/-- `k` steps that raised no fault, with `n` records left at their start. -/
theorem run_pc_of_not_fault {k n : Nat} {s t : State} (hi : s.Inv) (hs : s.status = .running)
    (hn : s.progLen.toNat = s.pc.toNat + 5 * n) (h : Host.Core.run Sys2Proof.core k s = .next t)
    (ht : t.status ≠ .fault) : t.pc.toNat = s.pc.toNat + 5 * k ∧ k ≤ n ∧ (t.status = .done ↔ k = n) := by
  induction k generalizing s n with
  | zero =>
    cases h
    obtain ⟨-, -, hle⟩ := hi.running hs
    have hne : 0 ≠ n := by omega
    exact ⟨rfl, Nat.zero_le n, by simp [hs, hne]⟩
  | succ k ih =>
    obtain ⟨u, hu, hrun⟩ := run_succ_next h
    obtain ⟨-, hlen⟩ := step_prog_progLen hu
    obtain ⟨-, -, hle⟩ := hi.running hs
    cases k with
    | zero =>
      cases hrun
      obtain ⟨hpc, hdone⟩ := step_pc_of_not_fault hu ht
      rw [hdone, ← BitVec.toNat_inj, hpc, hlen]
      omega
    | succ j =>
      obtain ⟨w, hw, -⟩ := run_succ_next hrun
      obtain ⟨hus, -⟩ := step_next hw
      obtain ⟨hpc, -⟩ := step_pc_of_not_fault hu (by simp [hus])
      obtain ⟨hpc', hle', hdone⟩ := ih (n := n - 1) (inv_step hi hu) hus (by rw [hlen, hpc]; omega) hrun
      exact ⟨by omega, by omega, hdone.trans (by omega)⟩

/-- Settles O31. -/
theorem runOfRecordsTakesOneStepEach : Obligations.RunOfRecordsTakesOneStepEach := by
  intro k s t hi hs h ht
  obtain ⟨n, hn⟩ := hi.records_left hs
  have hdiv : (s.progLen.toNat - s.pc.toNat) / 5 = n + 1 := by omega
  rw [hdiv]
  exact run_pc_of_not_fault hi hs hn h ht

/-- With the whole program written a run's step answers a next state (70_reset_and_hazards.md R123). -/
theorem exists_step_next {s : State} (hi : s.Inv) (hs : s.status = .running) (hw : s.programWritten) :
    ∃ t, step s = .next t := by
  obtain ⟨-, -, hle⟩ := hi.running hs
  cases hf : fetch s with
  | none =>
    obtain ⟨k, hk, hn⟩ := (fetch_eq_none_iff s).mp hf
    exact absurd hn (hw _ (by omega))
  | some r =>
    obtain ⟨e, -, he⟩ := executeRecord_effect r s
    exact ⟨_, step_of_executeRecord hs hle hf he.self⟩

/-- A run of a written program with `n` records left ends within `n` steps. -/
theorem endsWithin_of_records_left {n : Nat} {s : State} (hi : s.Inv) (hs : s.status = .running)
    (hw : s.programWritten) (hn : s.progLen.toNat = s.pc.toNat + 5 * n) : endsWithin n s := by
  induction n generalizing s with
  | zero =>
    obtain ⟨-, -, hle⟩ := hi.running hs
    omega
  | succ n ih =>
    obtain ⟨t, ht⟩ := exists_step_next hi hs hw
    rcases step_next_status ht with hrun | hend
    · obtain ⟨hprog, hlen⟩ := step_prog_progLen ht
      obtain ⟨hpc, -⟩ := step_pc_of_not_fault ht (by simp [hrun])
      have hwt : t.programWritten := by
        rw [State.programWritten, hprog, hlen]
        exact hw
      obtain ⟨k, u, hk, hu, hend⟩ := ih (inv_step hi ht) hrun hwt (by rw [hlen, hpc]; omega)
      exact ⟨k + 1, u, Nat.succ_le_succ hk, (run_succ_of_step ht k).trans hu, hend⟩
    · exact ⟨1, t, Nat.succ_le_succ (Nat.zero_le n), run_succ_of_step ht 0, hend⟩

/-- Settles O32. -/
theorem everyRunEnds : Obligations.EveryRunEnds := by
  intro s hi hs hw
  obtain ⟨n, hn⟩ := hi.records_left hs
  have hdiv : (s.progLen.toNat - s.pc.toNat) / 5 = n + 1 := by omega
  rw [hdiv]
  exact endsWithin_of_records_left hi hs hw hn

end Sys2Proof.Machine
end

section
/-! PROOFS. The host port (10_state.md R23 to R35): what each register shows and takes, both CTRL bits, the data ports,
and the boot order (70_reset_and_hazards.md R125).
-/

namespace Sys2Proof.Machine

/-! ## Status fields (10_state.md R23, 60_exceptions.md R101) -/

theorem Status.bits_toNat_inj {a b : Status} : a.bits.toNat = b.bits.toNat ↔ a = b := by
  cases a <;> cases b <;> decide

theorem FaultCode.bits_toNat_inj {a b : FaultCode} : a.bits.toNat = b.bits.toNat ↔ a = b := by
  cases a <;> cases b <;> decide

theorem FaultOp.bits_toNat_inj {a b : FaultOp} : a.bits.toNat = b.bits.toNat ↔ a = b := by
  cases a <;> cases b <;> decide

theorem FaultCode.bits_toNat_le (c : FaultCode) : c.bits.toNat ≤ 6 := by cases c <;> decide

theorem FaultOp.bits_toNat_le (o : FaultOp) : o.bits.toNat ≤ 2 := by cases o <;> decide

theorem hostRead_status (s : State) : hostRead .status s = some s.status.bits.toNat :=
  hostRead_of_readable (r := .status) rfl

theorem hostRead_faultCode (s : State) : hostRead .faultCode s = some s.fault.code.bits.toNat :=
  hostRead_of_readable (r := .faultCode) rfl

theorem hostRead_faultOp (s : State) : hostRead .faultOp s = some s.fault.op.bits.toNat :=
  hostRead_of_readable (r := .faultOp) rfl

/-- STATUS shows the code of a status exactly in that status. -/
theorem hostRead_status_eq_iff (s : State) (v : Status) : hostRead .status s = some v.bits.toNat ↔ s.status = v := by
  rw [hostRead_status, Option.some.injEq, Status.bits_toNat_inj]

theorem hostRead_faultCode_eq_iff (s : State) (c : FaultCode) :
    hostRead .faultCode s = some c.bits.toNat ↔ s.fault.code = c := by
  rw [hostRead_faultCode, Option.some.injEq, FaultCode.bits_toNat_inj]

theorem hostRead_faultOp_eq_iff (s : State) (o : FaultOp) :
    hostRead .faultOp s = some o.bits.toNat ↔ s.fault.op = o := by
  rw [hostRead_faultOp, Option.some.injEq, FaultOp.bits_toNat_inj]

/-- Settles O47: each code is the encoding of one value, and the encodings are distinct. -/
theorem statusFieldsShowTheirCodes : Obligations.StatusFieldsShowTheirCodes := by
  intro s
  have hcode : ∀ n, hostRead .faultCode s = some n → n ≤ 6 := fun n hn => by
    cases (hostRead_faultCode s).symm.trans hn
    exact s.fault.code.bits_toNat_le
  have hop : ∀ n, hostRead .faultOp s = some n → n ≤ 2 := fun n hn => by
    cases (hostRead_faultOp s).symm.trans hn
    exact s.fault.op.bits_toNat_le
  exact ⟨hostRead_status_eq_iff s .idle, hostRead_status_eq_iff s .running, hostRead_status_eq_iff s .done,
    hostRead_status_eq_iff s .fault, hostRead_faultCode_eq_iff s .noFault, hostRead_faultCode_eq_iff s .malformedStream,
    hostRead_faultCode_eq_iff s .unknownOpcode, hostRead_faultCode_eq_iff s .outOfBounds,
    hostRead_faultCode_eq_iff s .stackUnderflow, hostRead_faultCode_eq_iff s .stackOverflow,
    hostRead_faultCode_eq_iff s .illegalOperand, hcode, hostRead_of_readable (r := .faultPc) rfl,
    hostRead_of_readable (r := .faultOpcode) rfl, hostRead_of_readable (r := .faultAddr) rfl,
    hostRead_faultOp_eq_iff s .noOp, hostRead_faultOp_eq_iff s .read, hostRead_faultOp_eq_iff s .write, hop⟩

/-! ## Access -/

/-- Settles O53: FAULT has no result (R38), and its access column is empty for the data ports (R28). -/
theorem faultedRunHasNoResult : Obligations.FaultedRunHasNoResult := by
  intro s hs
  have hnone : ∀ r, hostReadable r .fault = false → hostRead r s = none := fun r hr =>
    hostRead_of_not_readable (hs ▸ hr)
  exact ⟨if_neg (by simp [hs]), hnone .memData rfl, hnone .stackData rfl, hnone .progData rfl⟩

/-- Settles O58, by the three rows of the access column. -/
theorem writesOutsideTheirAccessAreIgnored : Obligations.WritesOutsideTheirAccessAreIgnored := by
  intro s r v
  have hignored : hostWritable r s.status = false → hostWrite r v s = .next s := fun h => hostWrite_of_not_writable h v
  refine ⟨fun hr => hignored ?readOnly, fun hr hidle => hignored ?idleOnly, fun hr hidle hdone => hignored ?idleOrDone⟩
  case readOnly => fin_cases hr <;> rfl
  case idleOnly => fin_cases hr <;> simp [hostWritable, hidle]
  case idleOrDone => fin_cases hr <;> simp [hostWritable, hidle, hdone]

/-! ## Both bits of CTRL -/

/-- A write of START after a single step takes effect where the step left IDLE (R31, R35). -/
theorem reactAll_step_start {s : State} (hs : s.status = .idle) :
    reactAll [.write .ctrl 2, .write .ctrl 1] s = stepThenStart s := by
  obtain ⟨e, -, he⟩ := executeRecord_effect (stepRecord s) s
  have hstep : singleStep s = .next (e.apply s) := he.self
  have hfirst : react (.write .ctrl 2) s = .next (e.apply s) := (hostWrite_step hs rfl rfl).trans hstep
  rw [reactAll_cons_of_react hfirst, stepThenStart, hstep]
  by_cases hidle : (e.apply s).status = .idle
  · have hsecond : react (.write .ctrl 1) (e.apply s) = .next (startRun (e.apply s)) := hostWrite_start hidle rfl rfl
    rw [reactAll_cons_of_react hsecond, reactAll]
    simp only [if_pos hidle]
  · have hsecond : react (.write .ctrl 1) (e.apply s) = .next (e.apply s) :=
      hostWrite_of_not_writable (hostWritable_ctrl_of_ne hidle) 1
    rw [reactAll_cons_of_react hsecond, reactAll]
    simp only [if_neg hidle]

/-- Settles O37, by the value drawn. -/
theorem bothCtrlBitsDoOneOfFourThings : Obligations.BothCtrlBitsDoOneOfFourThings := by
  intro s v hs h0 h1 d
  have hboth : hostWrite .ctrl v s = ctrlBoth (Config.ctrlBothBits s.draws) d := by
    rw [hostWrite_of_writable (by simp [hostWritable, hs]), hostWriteReg]
    simp only [ctrlWrite, h0, h1]
    rfl
  rw [hboth]
  have hd : d.status = .idle := hs
  cases Config.ctrlBothBits s.draws with
  | neither => exact .inl rfl
  | startOnly => exact .inr (.inl (hostWrite_start hd rfl rfl).symm)
  | stepOnly => exact .inr (.inr (.inl (hostWrite_step hd rfl rfl).symm))
  | stepThenStart => exact .inr (.inr (.inr (reactAll_step_start hd).symm))

/-! ## The registers the host reads back (R23) -/

section
variable {s : State} (hs : s.status = .idle)
include hs

theorem hostWrite_stepRecLo (v : U32) : hostWrite .stepRecLo v s = .next (s.withStepRecLo v) :=
  hostWrite_of_writable (by simp [hostWritable, hs]) v

theorem hostWrite_stepRecHi (v : U32) :
    hostWrite .stepRecHi v s = .next (s.withStepRecHi (BitVec.setWidth 8 v)) :=
  hostWrite_of_writable (by simp [hostWritable, hs]) v

theorem hostWrite_progAddr (v : U32) : hostWrite .progAddr v s = .next (s.withProgAddr v) :=
  hostWrite_of_writable (by simp [hostWritable, hs]) v

theorem hostWrite_progData_of_lt (ha : s.progAddr.toNat < s.cfg.progMax) (v : U32) :
    hostWrite .progData v s = .next (s.withProg (s.prog.write s.progAddr.toNat (BitVec.setWidth 8 v))) := by
  rw [hostWrite_of_writable (by simp [hostWritable, hs]), hostWriteReg, if_pos ha]

theorem hostWrite_memData_of_lt (ha : s.memAddr.toNat < s.cfg.memSize) (v : U32) :
    hostWrite .memData v s = .next (s.withMem (s.mem.write s.memAddr.toNat v)) := by
  rw [hostWrite_of_writable (by simp [hostWritable, hs]), hostWriteReg, if_pos ((inBounds_iff _ _).mpr ha)]

theorem hostWrite_stackPush_of_room (hroom : ∀ d, s.cfg.stackDepth = some d → s.stack.length < d) (v : U32) :
    hostWrite .stackPush v s = .next (s.pushValue v) := by
  rw [hostWrite_of_writable (by simp [hostWritable, hs]), hostWriteReg, State.stackFull_eq_false hroom]
  rfl

theorem hostRead_progData_of_lt (ha : s.progAddr.toNat < s.cfg.progMax) :
    hostRead .progData s = (s.prog.read s.progAddr.toNat).map BitVec.toNat := by
  rw [hostRead_of_readable (by simp [hostReadable, hs]), hostReadValue, if_pos ha]

end

section
variable {s : State} (hs : s.status = .idle ∨ s.status = .done)
include hs

/-- The five registers readable in IDLE and DONE and in no other status. -/
theorem hostReadable_of_idle_or_done {r : HostReg}
    (hr : r ∈ [HostReg.progAddr, .memAddr, .memData, .stackIndex, .stackData]) : hostReadable r s.status = true := by
  rcases hs with hs | hs <;> rw [hs] <;> revert r <;> decide

theorem hostWrite_memAddr (v : U32) : hostWrite .memAddr v s = .next (s.withMemAddr v) :=
  hostWrite_of_writable (by simpa [hostWritable] using hs) v

theorem hostWrite_stackIndex (v : U32) : hostWrite .stackIndex v s = .next (s.withStackIndex v) :=
  hostWrite_of_writable (by simpa [hostWritable] using hs) v

theorem hostRead_progAddr : hostRead .progAddr s = some s.progAddr.toNat :=
  hostRead_of_readable (hostReadable_of_idle_or_done hs (by simp))

theorem hostRead_memAddr : hostRead .memAddr s = some s.memAddr.toNat :=
  hostRead_of_readable (hostReadable_of_idle_or_done hs (by simp))

theorem hostRead_stackIndex : hostRead .stackIndex s = some s.stackIndex.toNat :=
  hostRead_of_readable (hostReadable_of_idle_or_done hs (by simp))

theorem hostRead_memData_of_lt (ha : s.memAddr.toNat < s.cfg.memSize) :
    hostRead .memData s = some (s.mem.read s.memAddr.toNat).toNat := by
  rw [hostRead_of_readable (hostReadable_of_idle_or_done hs (by simp)), hostReadValue,
    if_pos ((inBounds_iff _ _).mpr ha)]

theorem hostRead_stackData : hostRead .stackData s = (s.stack[s.stackIndex.toNat]?).map BitVec.toNat :=
  hostRead_of_readable (hostReadable_of_idle_or_done hs (by simp))

end

/-- STACK_DATA shows the entry above as many others as STACK_INDEX says (R23). -/
theorem hostRead_stackData_of_append {s : State} (hs : s.status = .idle ∨ s.status = .done) {low up : List I32}
    {x : I32} (hstack : s.stack = low ++ x :: up) (hlow : low.length = s.stackIndex.toNat) :
    hostRead .stackData s = some x.toNat := by
  rw [hostRead_stackData hs, hstack, ← hlow, List.getElem?_append_right (Nat.le_refl _), Nat.sub_self]
  rfl

/-- Settles O57: each write is the update of its field, which the read then shows. -/
theorem registersReadBackWhatWasWritten : Obligations.RegistersReadBackWhatWasWritten := by
  intro s v
  refine ⟨⟨hostRead_of_readable (r := .stepRecLo) rfl, hostRead_of_readable (r := .stepRecHi) rfl⟩,
    fun hs => ⟨?stepRecLo, ?stepRecHi, ?progAddr⟩,
    fun hs => ⟨hostRead_progAddr hs, hostRead_memAddr hs, hostRead_stackIndex hs, ?memAddr, ?stackIndex⟩⟩
  case stepRecLo => exact ⟨_, hostWrite_stepRecLo hs v, rfl, hostRead_of_readable (r := .stepRecLo) rfl⟩
  case stepRecHi =>
    have hread := hostRead_of_readable (r := .stepRecHi) (s := s.withStepRecHi (BitVec.setWidth 8 v)) rfl
    exact ⟨_, hostWrite_stepRecHi hs v, rfl, hread.trans (congrArg some (BitVec.toNat_setWidth ..))⟩
  case progAddr =>
    exact ⟨_, hostWrite_progAddr hs v, rfl, hostRead_progAddr (s := s.withProgAddr v) (.inl hs)⟩
  case memAddr =>
    exact ⟨_, hostWrite_memAddr hs v, rfl, hostRead_memAddr (s := s.withMemAddr v) hs,
      hostRead_memData_of_lt (s := s.withMemAddr v) hs⟩
  case stackIndex =>
    exact ⟨_, hostWrite_stackIndex hs v, rfl, hostRead_stackIndex (s := s.withStackIndex v) hs,
      fun _ _ _ => hostRead_stackData_of_append (s := s.withStackIndex v) hs,
      hostRead_stackData_of_le (s := s.withStackIndex v)⟩

/-- Two inputs in order. -/
theorem reactAll_pair {i j : Input} {s t u : State} (hi : react i s = .next t) (hj : react j t = .next u) :
    reactAll [i, j] s = .next u := by
  rw [reactAll_cons_of_react hi, reactAll_cons_of_react hj, reactAll]

/-- Settles O46: the address register, then the data port, each one update of the state. -/
theorem dataPortsWriteThenRead : Obligations.DataPortsWriteThenRead := by
  intro s a v hi hs
  refine ⟨fun ha => ?memData, fun ha => ?progData, fun hroom hlen => ?stackPush⟩
  case memData =>
    have hw : react (.write .memData v) (s.withMemAddr a) = .next ((s.withMemAddr a).withMem (s.mem.write a.toNat v)) :=
      hostWrite_memData_of_lt (s := s.withMemAddr a) hs ha v
    have hread := hostRead_memData_of_lt (s := (s.withMemAddr a).withMem (s.mem.write a.toNat v)) (.inl hs) ha
    refine ⟨_, reactAll_pair (hostWrite_memAddr (.inl hs) a) hw, hread.trans ?_, fun b hb => ?_⟩
    · simp [Memory.read_write hi.mem]
    · simp [Memory.read_write hi.mem, hb]
  case progData =>
    have hw : react (.write .progData v) (s.withProgAddr a) =
        .next ((s.withProgAddr a).withProg (s.prog.write a.toNat (BitVec.setWidth 8 v))) :=
      hostWrite_progData_of_lt (s := s.withProgAddr a) hs ha v
    have hread := hostRead_progData_of_lt
      (s := (s.withProgAddr a).withProg (s.prog.write a.toNat (BitVec.setWidth 8 v))) hs ha
    refine ⟨_, reactAll_pair (hostWrite_progAddr hs a) hw, hread.trans ?_, fun b hb => ?_⟩
    · simp
    · simp [hb]
  case stackPush =>
    have hpush : react (.write .stackPush v) s = .next (s.pushValue v) := hostWrite_stackPush_of_room hs hroom v
    have hindex : react (.write .stackIndex (BitVec.ofNat 32 s.stack.length)) (s.pushValue v) =
        .next ((s.pushValue v).withStackIndex (BitVec.ofNat 32 s.stack.length)) :=
      hostWrite_stackIndex (s := s.pushValue v) (.inl hs) _
    have htop : s.stack.length = (BitVec.ofNat 32 s.stack.length).toNat := by
      rw [BitVec.toNat_ofNat, Nat.mod_eq_of_lt hlen]
    have hread := hostRead_stackData_of_append
      (s := (s.pushValue v).withStackIndex (BitVec.ofNat 32 s.stack.length)) (up := []) (.inl hs) rfl htop
    exact ⟨_, reactAll_pair hpush hindex, hread, rfl, rfl⟩

/-! ## Boot (70_reset_and_hazards.md R125) -/

/-- A program store has fewer than `2^32` bytes (00_scope.md R7). -/
theorem progMax_lt_of_wf {c : Config} (h : c.wf = true) : c.progMax < 4294967296 := by
  simp only [Config.wf, Bool.and_eq_true, decide_eq_true_eq] at h
  obtain ⟨⟨-, hp⟩, -⟩ := h
  exact hp

/-- Loading the bytes `p` from offset `i` on changes PROG_ADDR and the program store only, and puts `p` there. -/
theorem reactAll_loadBytes {p : List Byte} {i : Nat} {s : State} (hs : s.status = .idle)
    (hcap : s.cfg.progMax < 4294967296) (hp : i + p.length ≤ s.cfg.progMax) :
    ∃ a q, reactAll (loadBytes i p) s = .next ((s.withProgAddr a).withProg q) ∧
      ∀ j, q.read j = if j < i then s.prog.read j else (p[j - i]?).or (s.prog.read j) := by
  induction p generalizing i s with
  | nil => exact ⟨s.progAddr, s.prog, rfl, fun j => by simp⟩
  | cons b rest ih =>
    rw [List.length_cons] at hp
    have haddr : (BitVec.ofNat 32 i).toNat = i := by
      rw [BitVec.toNat_ofNat]
      exact Nat.mod_eq_of_lt (by omega)
    have ha : react (.write .progAddr (BitVec.ofNat 32 i)) s = .next (s.withProgAddr (BitVec.ofNat 32 i)) :=
      hostWrite_progAddr hs _
    have hbyte : BitVec.setWidth 8 (BitVec.setWidth 32 b) = b := by simp
    have hw : react (.write .progData (BitVec.setWidth 32 b)) (s.withProgAddr (BitVec.ofNat 32 i)) =
        .next ((s.withProgAddr (BitVec.ofNat 32 i)).withProg (s.prog.write i b)) := by
      have hlt : (s.withProgAddr (BitVec.ofNat 32 i)).progAddr.toNat < s.cfg.progMax := by
        rw [State.withProgAddr_progAddr, haddr]
        omega
      have hdata := hostWrite_progData_of_lt (s := s.withProgAddr (BitVec.ofNat 32 i)) hs hlt (BitVec.setWidth 32 b)
      rwa [State.withProgAddr_progAddr, haddr, hbyte] at hdata
    obtain ⟨a, q, hload, hread⟩ := ih (i := i + 1)
      (s := (s.withProgAddr (BitVec.ofNat 32 i)).withProg (s.prog.write i b)) hs hcap (by
        simp only [State.withProg_cfg, State.withProgAddr_cfg]
        omega)
    refine ⟨a, q, ?_, fun j => ?_⟩
    · rw [loadBytes, reactAll_cons_of_react ha, reactAll_cons_of_react hw, hload]
      rfl
    · rw [hread, State.withProg_prog, ProgramStore.read_write]
      rcases Nat.lt_trichotomy j i with hlt | rfl | hgt
      · rw [if_pos (by omega), if_pos hlt, if_neg (by omega)]
      · simp
      · rw [if_neg (by omega), if_neg (by omega), if_neg (by omega), show j - i = j - (i + 1) + 1 by omega,
          List.getElem?_cons_succ]

section
variable (s : State)

/-- START's three outcomes by PROG_LEN as a number (R31). -/
theorem startRun_status : (startRun s).status =
    if s.progLen.toNat % 5 ≠ 0 then .fault else if s.progLen.toNat = 0 then .done else .running := by
  have hzero : s.progLen.toNat = 0 ↔ s.progLen = 0 := BitVec.toNat_inj (y := 0)
  simp only [startRun, hzero]
  split_ifs <;> rfl

@[simp] theorem startRun_pc : (startRun s).pc = s.pc := by
  unfold startRun
  split_ifs <;> rfl

@[simp] theorem startRun_stack : (startRun s).stack = s.stack := by
  unfold startRun
  split_ifs <;> rfl

@[simp] theorem startRun_prog : (startRun s).prog = s.prog := by
  unfold startRun
  split_ifs <;> rfl

@[simp] theorem startRun_progLen : (startRun s).progLen = s.progLen := by
  unfold startRun
  split_ifs <;> rfl

end

/-- The boot order, up to START: the program stands in the store of a state otherwise as reset left it (R125). -/
theorem reactAll_bootScript {p : List Byte} {s : State} (hc : s.cfg.wf = true) (hp : p.length ≤ s.cfg.progMax) :
    ∃ a q, reactAll (bootScript p) s = .next (startRun
        ((((hardReset s).withProgAddr a).withProg q).withProgLen (BitVec.ofNat 32 p.length))) ∧
      ∀ i, q.read i = p[i]? := by
  obtain ⟨a, q, hload, hread⟩ := reactAll_loadBytes (p := p) (i := 0) (s := hardReset s) rfl
    (progMax_lt_of_wf hc) (by simpa using hp)
  have hlen : react (.write .progLen (BitVec.ofNat 32 p.length)) (((hardReset s).withProgAddr a).withProg q) =
      .next ((((hardReset s).withProgAddr a).withProg q).withProgLen (BitVec.ofNat 32 p.length)) := by
    rw [react, hostWrite_progLen rfl, if_pos]
    exact (BitVec.toNat_ofNat ..).trans_le ((Nat.mod_le ..).trans hp)
  have hstart : react (.write .ctrl 1) ((((hardReset s).withProgAddr a).withProg q).withProgLen
      (BitVec.ofNat 32 p.length)) = .next (startRun _) := hostWrite_start rfl rfl rfl
  refine ⟨a, q, ?_, fun i => by simpa using hread i⟩
  rw [bootScript, reactAll_cons_of_react (react_reset s), reactAll_append hload, reactAll_pair hlen hstart]

/-- Settles O48. -/
theorem bootLoadsAndStartsTheProgram : Obligations.BootLoadsAndStartsTheProgram := by
  intro p s hc hp
  obtain ⟨a, q, hboot, hread⟩ := reactAll_bootScript hc hp
  have hlen : (BitVec.ofNat 32 p.length).toNat = p.length := by
    rw [BitVec.toNat_ofNat]
    exact Nat.mod_eq_of_lt (hp.trans_lt (progMax_lt_of_wf hc))
  refine ⟨_, hboot, ?_, ?_, fun i => ?_, ?_, ?_, fun a => ?_, ?_⟩
  · rw [startRun_status, State.withProgLen_progLen, hlen]
  · rw [startRun_progLen, State.withProgLen_progLen, hlen]
  · rw [startRun_prog]
    exact hread i
  · rw [startRun_pc]
    rfl
  · rw [startRun_stack]
    rfl
  · rw [startRun_mem]
    rfl
  · rw [startRun_cfg]
    rfl

end Sys2Proof.Machine
end

section
/-! PROOFS. The result as the memory's own list (10_state.md R36; log 8).
-/

namespace Sys2Proof.Machine

/-- The keys of a rising list rise strictly, from the lower bound on. -/
theorem sparseRising_pairwise {α : Type} {hi lo : Nat} {l : List (Nat × α)} (h : sparseRising hi lo l = true) :
    (∀ e ∈ l, lo ≤ e.1 ∧ e.1 < hi) ∧ l.Pairwise (fun x y => x.1 < y.1) := by
  induction l generalizing lo with
  | nil => exact ⟨nofun, .nil⟩
  | cons x rest ih =>
    simp only [sparseRising, Bool.and_eq_true, decide_eq_true_eq] at h
    obtain ⟨⟨hlo, hhi⟩, hrest⟩ := h
    obtain ⟨hbounds, hpair⟩ := ih hrest
    refine ⟨List.forall_mem_cons.mpr ⟨⟨hlo, hhi⟩, fun e he => ?_⟩, .cons (fun e he => (hbounds e he).1) hpair⟩
    obtain ⟨hle, hlt⟩ := hbounds e he
    exact ⟨by omega, hlt⟩

/-- Two lists of pairs with strictly rising keys and the same pairs are the same list. -/
theorem eq_of_pairwise_of_mem_iff {α : Type} {l m : List (Nat × α)} (hl : l.Pairwise (fun x y => x.1 < y.1))
    (hm : m.Pairwise (fun x y => x.1 < y.1)) (h : ∀ e, e ∈ l ↔ e ∈ m) : l = m := by
  have hnodup : ∀ {k : List (Nat × α)}, k.Pairwise (fun x y => x.1 < y.1) → k.Nodup := by
    intro k hk
    refine hk.imp fun {x y} hlt heq => ?_
    exact Nat.ne_of_lt hlt (congrArg Prod.fst heq)
  have hperm : l.Perm m := (List.perm_ext_iff_of_nodup (hnodup hl) (hnodup hm)).mpr h
  exact hperm.eq_of_pairwise (fun x y _ _ hxy hyx => absurd hyx (Nat.lt_asymm hxy)) hl hm

/-- The snapshot of a canonical memory is its own list. -/
theorem snapshotOf_eq_cells {size : Nat} {m : Memory} (h : m.wf size = true) :
    snapshotOf size m = m.cells.map fun e => (e.1, e.2.toInt) := by
  obtain ⟨hbounds, hpair⟩ := sparseRising_pairwise (Memory.wf_rising h)
  refine eq_of_pairwise_of_mem_iff (snapshotOf_pairwise size m) (hpair.map _ fun _ _ hlt => hlt) fun ⟨a, v⟩ => ?_
  rw [mem_snapshotOf_iff, List.mem_map]
  constructor
  · rintro ⟨-, rfl, hv⟩
    exact ⟨(a, m.read a), (Memory.mem_cells_iff h a _).mpr ⟨rfl, BitVec.toInt_ne.mp hv⟩, rfl⟩
  · rintro ⟨⟨b, w⟩, he, heq⟩
    cases heq
    obtain ⟨hread, hne⟩ := (Memory.mem_cells_iff h b w).mp he
    exact ⟨(hbounds _ he).2, congrArg BitVec.toInt hread, BitVec.toInt_ne.mpr hne⟩

/-- Settles O59. -/
theorem snapshotIsTheMemorysOwnList : Obligations.SnapshotIsTheMemorysOwnList := fun _ hi hs =>
  (if_pos hs).trans (congrArg some (snapshotOf_eq_cells hi.mem))

end Sys2Proof.Machine
end

section
/-! PROOFS. The assembler (30_encoding.md R74 to R89): lines, rows, records and errors.
-/

namespace Sys2Proof.Machine

/-! ## Lines (R74; log 15) -/

theorem toNat_eq_ten_iff (c : Char) : c.toNat = 10 ↔ c = '\n' :=
  ⟨fun h => Char.toNat_inj.mp h, fun h => h ▸ rfl⟩

/-- The lines of a text joined by LF are the text. -/
theorem intercalate_splitLines (t cur : Text) : List.intercalate ['\n'] (splitLines t cur) = cur.reverse ++ t := by
  induction t generalizing cur with
  | nil => simp [splitLines]
  | cons c cs ih =>
    rw [splitLines]
    split
    · rename_i hc
      rw [toNat_eq_ten_iff] at hc
      rw [List.intercalate_cons_of_ne_nil (splitLines_ne_nil cs []), ih, hc]
      simp
    · rw [ih]
      simp

/-- No line holds an LF. -/
theorem not_mem_of_mem_splitLines {t cur line : Text} (hcur : '\n' ∉ cur) (h : line ∈ splitLines t cur) :
    '\n' ∉ line := by
  induction t generalizing cur with
  | nil =>
    rw [splitLines, List.mem_singleton] at h
    simpa [h] using hcur
  | cons c cs ih =>
    rw [splitLines] at h
    split at h
    · rcases List.mem_cons.mp h with rfl | h
      · simpa using hcur
      · exact ih List.not_mem_nil h
    · rename_i hc
      rw [toNat_eq_ten_iff] at hc
      exact ih (by simp [hcur, Ne.symm hc]) h

/-! ## Rows -/

/-- The tokens of a line are skipped where there are none or the first begins with `#` (R75). -/
theorem decide_not_skipped (tokens : List Text) :
    decide (tokens ≠ [] ∧ tokens.head?.bind List.head? ≠ some '#') = !isSkipped tokens := by
  match tokens with
  | [] => rfl
  | [] :: _ => rfl
  | (c :: _) :: _ => simp [isSkipped]

/-- The rows of lines that assemble: the tokens of those not skipped, in order, each with what they assemble to. -/
theorem assembleLines_ok {lines : List Text} {rows : List AsmRow} (h : assembleLines lines = .ok rows) :
    rows.map (fun row => row.mnemonic :: row.operands) =
      (lines.map lineTokens).filter (fun tokens => !isSkipped tokens) ∧
    ∀ row ∈ rows, assembleInstr row.mnemonic row.operands = .ok row.instr := by
  induction lines generalizing rows with
  | nil =>
    cases h
    exact ⟨rfl, nofun⟩
  | cons line rest ih =>
    obtain ⟨row, rows', hline, hrest, rfl⟩ := assembleLines_cons_ok h
    obtain ⟨hmap, hinstr⟩ := ih hrest
    rcases assembleLine_ok hline with ⟨hskip, rfl⟩ | ⟨m, ops, i, htokens, hskip, hi, rfl⟩
    · exact ⟨by simp [hskip, hmap], hinstr⟩
    · exact ⟨by simp [htokens, hskip, hmap], List.forall_mem_cons.mpr ⟨hi, hinstr⟩⟩

theorem wellFormed_of_assembleConstant {ops : List Text} {i : Instr} (h : assembleConstant ops = .ok i) :
    wellFormed i = true := by
  unfold assembleConstant at h
  split at h
  · split_ifs at h with hc
    cases h
    exact hc
  · cases h

theorem assembleAddress_ok {make : Nat → Instr} {ops : List Text} {i : Instr} (h : assembleAddress make ops = .ok i) :
    ∃ a, inU32 a = true ∧ i = make a := by
  unfold assembleAddress at h
  split at h
  · split_ifs at h with ha
    cases h
    rw [Bool.and_eq_true] at ha
    exact ⟨_, ha.2, rfl⟩
  · cases h

/-- What a line assembles to has its operand in range (R78 to R81). -/
theorem wellFormed_of_assembleInstr {m : Text} {ops : List Text} {i : Instr} (h : assembleInstr m ops = .ok i) :
    wellFormed i = true := by
  unfold assembleInstr at h
  split_ifs at h
  · exact wellFormed_of_assembleConstant h
  · obtain ⟨a, ha, rfl⟩ := assembleAddress_ok h
    exact ha
  · obtain ⟨a, ha, rfl⟩ := assembleAddress_ok h
    exact ha
  · cases h
    rfl

/-! ## Records (R73, R85) -/

/-- A stream of whole records is cut into them. -/
theorem recordsOf_flatMap_bytes (rs : List Record) : recordsOf (rs.flatMap Record.bytes) = some rs := by
  induction rs with
  | nil => rfl
  | cons r rest ih => simp [Record.bytes, recordsOf, ih]

theorem length_flatMap_bytes (rs : List Record) : (rs.flatMap Record.bytes).length = 5 * rs.length := by
  induction rs with
  | nil => rfl
  | cons r rest ih =>
    rw [List.flatMap_cons, List.length_append, ih, List.length_cons, Nat.mul_succ, Nat.add_comm]
    rfl

theorem assemble_of_rows {src : Text} {rows : List AsmRow} (h : assembleRows src = .ok rows) :
    assemble src = .ok ((rows.map fun row => encode row.instr).flatMap Record.bytes) := by
  simp only [assemble, h, List.flatMap_map]

/-- Settles O54. -/
theorem assembledProgramDecodesToItsLines : Obligations.AssembledProgramDecodesToItsLines := by
  intro src rows h
  obtain ⟨hmap, hinstr⟩ := assembleLines_ok h
  simp only [decide_not_skipped]
  refine ⟨intercalate_splitLines src [], fun line => not_mem_of_mem_splitLines List.not_mem_nil, hmap, hinstr, _, _,
    assemble_of_rows h, recordsOf_flatMap_bytes _, ?_, ?_⟩
  · rw [List.map_map, List.map_inj_left]
    exact fun row hrow => decode_encode (wellFormed_of_assembleInstr (hinstr row hrow))
  · rw [length_flatMap_bytes, List.length_map]

/-! ## Errors (R83, R84) -/

/-- A mnemonic outside the table is an error that names it. -/
theorem assembleInstr_unknown {m : Text} (h : m ∉ [mnLoadConst, mnReadMem, mnWriteMem, mnSgn]) (ops : List Text) :
    assembleInstr m ops = .error (.unknownInstruction m) := by
  simp only [List.mem_cons, List.not_mem_nil, or_false, not_or] at h
  obtain ⟨hl, hr, hw, hs⟩ := h
  rw [assembleInstr, if_neg hl, if_neg hr, if_neg hw, if_neg hs]

theorem assembleConstant_malformed {ops : List Text}
    (h : ∀ c, integerOperand ops = some c → c < -2147483648 ∨ 2147483647 < c) :
    assembleConstant ops = .error .malformedOperand := by
  unfold assembleConstant
  split
  · rename_i c hc
    refine if_neg ?_
    simp only [inI32, Bool.and_eq_true, decide_eq_true_eq]
    have := h c hc
    omega
  · rfl

theorem assembleAddress_malformed {ops : List Text}
    (h : ∀ a, integerOperand ops = some a → a < 0 ∨ 4294967295 < a) (make : Nat → Instr) :
    assembleAddress make ops = .error .malformedOperand := by
  unfold assembleAddress
  split
  · rename_i a ha
    refine if_neg ?_
    simp only [inU32, Bool.and_eq_true, decide_eq_true_eq]
    have := h a ha
    omega
  · rfl

/-- A line that is not skipped and whose instruction is an error is that error. -/
theorem assembleLine_error {line m : Text} {ops : List Text} {e : AsmError} (ht : lineTokens line = m :: ops)
    (hs : isSkipped (m :: ops) = false) (he : assembleInstr m ops = .error e) : assembleLine line = .error e := by
  simp [assembleLine, ht, hs, he]

/-- One line in error leaves the lines without rows. -/
theorem assembleLines_error {lines : List Text} {line : Text} {e : AsmError} (hmem : line ∈ lines)
    (he : assembleLine line = .error e) : ∃ e', assembleLines lines = .error e' := by
  induction lines with
  | nil => cases hmem
  | cons first rest ih =>
    rcases List.mem_cons.mp hmem with rfl | hmem
    · exact ⟨e, by simp only [assembleLines, he]⟩
    · obtain ⟨e', hrest⟩ := ih hmem
      cases hfirst : assembleLine first with
      | error e'' => exact ⟨e'', by simp only [assembleLines, hfirst]⟩
      | ok row => exact ⟨e', by simp only [assembleLines, hfirst, hrest]⟩

/-- Settles O55. -/
theorem assemblyErrorsLeaveNoOutput : Obligations.AssemblyErrorsLeaveNoOutput := by
  intro src line m ops hmem ht hs hbad
  have herror : ∃ e, assembleInstr m ops = .error e ∧
      (m ∉ [mnLoadConst, mnReadMem, mnWriteMem, mnSgn] → e = .unknownInstruction m) := by
    rcases hbad with hm | ⟨rfl, hc⟩ | ⟨rfl | rfl, ha⟩
    · exact ⟨_, assembleInstr_unknown hm ops, fun _ => rfl⟩
    · exact ⟨_, assembleConstant_malformed hc, fun hm => absurd (by decide) hm⟩
    · exact ⟨_, assembleAddress_malformed ha .readMem, fun hm => absurd (by decide) hm⟩
    · exact ⟨_, assembleAddress_malformed ha .writeMem, fun hm => absurd (by decide) hm⟩
  obtain ⟨e, he, hname⟩ := herror
  have hline := assembleLine_error ht hs he
  obtain ⟨e', hlines⟩ := assembleLines_error hmem hline
  exact ⟨⟨e, hline, hname⟩, e', by simp only [assemble, assembleRows, hlines]⟩

/-! ## Skipped lines (R75) -/

theorem assembleLine_of_skipped {line : Text} (h : isSkipped (lineTokens line) = true) :
    assembleLine line = .ok none := by
  unfold assembleLine
  split
  · rfl
  · rename_i m ops ht
    exact if_pos (ht ▸ h)

theorem assembleLines_cons_of_skipped {line : Text} (h : isSkipped (lineTokens line) = true) (rest : List Text) :
    assembleLines (line :: rest) = assembleLines rest := by
  rw [assembleLines, assembleLine_of_skipped h]
  cases assembleLines rest <;> rfl

/-- Settles O56, by induction on the lines before. -/
theorem skippedLinesAddNothing : Obligations.SkippedLinesAddNothing := by
  intro before after line h
  induction before with
  | nil => exact assembleLines_cons_of_skipped h after
  | cons first rest ih => simp only [List.cons_append, assembleLines, ih]

end Sys2Proof.Machine
end
